-- ==== Sys2Proof/Word.lean ====
section
/-! DEFINITION. Word types of the hopkiw/stuff ISS engine (00_scope.md R6, R9; 30_encoding.md R58, R59). -/

namespace Sys2Proof

/-- A 16-bit value: a register or a memory word (R6, R9). -/
abbrev Word := BitVec 16

/-- A byte of data memory (R34). -/
abbrev Byte := BitVec 8

/-- An entry of the instruction store (R58). -/
abbrev InstrWord := BitVec 64

/-- An operand slot of an instruction word (R59). -/
abbrev Slot := BitVec 24

end Sys2Proof
end

