-- ==== Sys2Proof/Syntax.lean ====
section
/-! DEFINITION. The instruction record: registers, operands and the thirteen instructions (30_encoding.md R55 to R62). -/

namespace Sys2Proof

/-- The nine registers of R13. -/
inductive RegId where
  | ax | bx | cx | dx | si | di | bp | sp | ip
deriving DecidableEq, Repr

/-- An operand the engine sees (R56). -/
inductive Operand where
  /-- A register. -/
  | reg (r : RegId)
  /-- An immediate 16-bit value. -/
  | imm (v : Word)
  /-- A memory word at `x[base] + disp`, or at `x[base] - disp` when `neg` (R39, R64). -/
  | mem (base : RegId) (neg : Bool) (disp : Word)
deriving DecidableEq, Repr

/-- The closed set of thirteen instructions (R60), each with the operands of its record (R55, R62). -/
inductive Instr where
  | mov (dst src : Operand)
  | add (dst src : Operand)
  | sub (dst src : Operand)
  | cmp (dst src : Operand)
  | jmp (target : Operand)
  | jne (target : Operand)
  | je (target : Operand)
  | push (src : Operand)
  | pop (dst : Operand)
  | call (target : Operand)
  | ret
  | mul (src : Operand)
  | nop
deriving DecidableEq, Repr

end Sys2Proof
end

