-- ==== Sys2Proof/WellFormed.lean ====
section
/-! DEFINITION. The operand kinds each instruction accepts at execution (30_encoding.md R62). An instruction that is not
well formed still has a word and decodes (R76); executing it raises InvalidOperand (log entry 12). -/

namespace Sys2Proof

/-- The operand is of kind Register. -/
def Operand.isReg : Operand → Bool
  | .reg _ => true
  | .imm _ => false
  | .mem _ _ _ => false

/-- The operand is of kind Immediate. -/
def Operand.isImm : Operand → Bool
  | .reg _ => false
  | .imm _ => true
  | .mem _ _ _ => false

/-- The operand is of kind Memory. -/
def Operand.isMem : Operand → Bool
  | .reg _ => false
  | .imm _ => false
  | .mem _ _ _ => true

/-- The operand-pair policy of `mov`, `add`, `sub` and `cmp` (R62, R83). -/
def Operand.pairOk (dst src : Operand) : Bool :=
  !dst.isImm && !(dst.isMem && src.isMem)

/-- The kinds R62 accepts. -/
def Instr.wellFormed : Instr → Bool
  | .mov dst src => dst.pairOk src
  | .add dst src => dst.pairOk src
  | .sub dst src => dst.pairOk src
  | .cmp dst src => dst.pairOk src
  | .jmp _ => true
  | .jne _ => true
  | .je _ => true
  | .push _ => true
  | .pop dst => !dst.isImm
  | .call _ => true
  | .ret => true
  | .mul src => src.isReg
  | .nop => true

end Sys2Proof
end

