-- ==== Sys2Proof/Decode.lean ====
section
/-! DEFINITION. Decoding an instruction word (30_encoding.md R65, R66) and the encoder written from the same layout
(R58, R59, R60, R61). -/

namespace Sys2Proof

/-- The two faults Decode raises (R65). -/
inductive DecodeError where
  /-- `OPC` of 13 to 15, or `RSV0` not 0. -/
  | unsupportedOpcode
  /-- Operand count or slot contents illegal. -/
  | invalidOperand
deriving DecidableEq, Repr

/-! ## Fields -/

/-- `v[hi:lo]`, the unsigned field of bits `hi` down to `lo` (R9). -/
def field {n : Nat} (v : BitVec n) (hi lo : Nat) : Nat := v.toNat / 2 ^ lo % 2 ^ (hi + 1 - lo)

/-- `OPC` (R58). -/
def opcField (w : InstrWord) : Nat := field w 63 60

/-- `NOPS` (R58). -/
def nopsField (w : InstrWord) : Nat := field w 59 58

/-- `RSV0` (R58). -/
def rsv0Field (w : InstrWord) : Nat := field w 57 48

/-- `SLOT0` (R58). -/
def slot0Field (w : InstrWord) : Slot := BitVec.ofNat 24 (field w 47 24)

/-- `SLOT1` (R58). -/
def slot1Field (w : InstrWord) : Slot := BitVec.ofNat 24 (field w 23 0)

/-- `KIND` (R59). -/
def kindField (s : Slot) : Nat := field s 23 22

/-- `NEG` (R59). -/
def negField (s : Slot) : Nat := field s 21 21

/-- `REG` (R59). -/
def regField (s : Slot) : Nat := field s 20 17

/-- `RSV1` (R59). -/
def rsv1Field (s : Slot) : Nat := field s 16 16

/-- `VAL` (R59), a value or a displacement magnitude, with no extension, shift or scaling (R63, R64). -/
def valField (s : Slot) : Word := BitVec.ofNat 16 (field s 15 0)

/-! ## Tables -/

/-- The register ids of R61. -/
def RegId.id : RegId → Nat
  | .ax => 0
  | .bx => 1
  | .cx => 2
  | .dx => 3
  | .si => 4
  | .di => 5
  | .bp => 6
  | .sp => 7
  | .ip => 8

/-- The register with an id; ids 9 to 15 are reserved (R61). -/
def regOfId : Nat → Option RegId
  | 0 => some .ax
  | 1 => some .bx
  | 2 => some .cx
  | 3 => some .dx
  | 4 => some .si
  | 5 => some .di
  | 6 => some .bp
  | 7 => some .sp
  | 8 => some .ip
  | _ => none

/-- `NOPS_of(opc)`, the operand counts of R60. -/
def nopsOf : Nat → Nat
  | 0 => 2
  | 1 => 2
  | 2 => 2
  | 3 => 2
  | 4 => 1
  | 5 => 1
  | 6 => 1
  | 7 => 1
  | 8 => 1
  | 9 => 1
  | 10 => 0
  | 11 => 1
  | _ => 0

/-! ## Decode -/

/-- An operand slot within `NOPS`; `none` where R65 raises InvalidOperand. -/
def decodeSlot (s : Slot) : Option Operand :=
  if rsv1Field s != 0 then none
  else match kindField s with
    | 0 => if negField s != 0 || valField s != 0 then none else (regOfId (regField s)).map .reg
    | 1 => if negField s != 0 || regField s != 0 then none else some (.imm (valField s))
    | 2 => (regOfId (regField s)).map fun b => .mem b (negField s != 0) (valField s)
    | _ => none

/-- The slots of an instruction without operands: both must be zero. -/
def decodeNone (i : Instr) (s0 s1 : Slot) : Except DecodeError Instr :=
  if s0 != 0 || s1 != 0 then .error .invalidOperand else .ok i

/-- The slots of a one-operand instruction: slot 1 must be zero. -/
def decodeOne (mk : Operand → Instr) (s0 s1 : Slot) : Except DecodeError Instr :=
  if s1 != 0 then .error .invalidOperand
  else match decodeSlot s0 with
    | some op => .ok (mk op)
    | none => .error .invalidOperand

/-- The slots of a two-operand instruction. -/
def decodeTwo (mk : Operand → Operand → Instr) (s0 s1 : Slot) : Except DecodeError Instr :=
  match decodeSlot s0, decodeSlot s1 with
  | some dst, some src => .ok (mk dst src)
  | _, _ => .error .invalidOperand

/-- The operands of opcode `opc` (R60); opcodes 13 to 15 do not reach it. -/
def decodeOperands (opc : Nat) (s0 s1 : Slot) : Except DecodeError Instr :=
  match opc with
  | 0 => decodeTwo .mov s0 s1
  | 1 => decodeTwo .add s0 s1
  | 2 => decodeTwo .sub s0 s1
  | 3 => decodeTwo .cmp s0 s1
  | 4 => decodeOne .jmp s0 s1
  | 5 => decodeOne .jne s0 s1
  | 6 => decodeOne .je s0 s1
  | 7 => decodeOne .push s0 s1
  | 8 => decodeOne .pop s0 s1
  | 9 => decodeOne .call s0 s1
  | 10 => decodeNone .ret s0 s1
  | 11 => decodeOne .mul s0 s1
  | 12 => decodeNone .nop s0 s1
  | _ => .error .unsupportedOpcode

/-- `Decode(w)` of R65, with its checks in the order of R115: opcode and `RSV0`, then the operand count, then the slots. -/
def decode (w : InstrWord) : Except DecodeError Instr :=
  if 13 ≤ opcField w || rsv0Field w != 0 then .error .unsupportedOpcode
  else if nopsField w != nopsOf (opcField w) then .error .invalidOperand
  else decodeOperands (opcField w) (slot0Field w) (slot1Field w)

/-! ## Encode -/

/-- A slot from its fields (R59), `RSV1` being 0. -/
def packSlot (kind neg reg : Nat) (val : Word) : Slot :=
  BitVec.ofNat 24 (kind * 2 ^ 22 + neg * 2 ^ 21 + reg * 2 ^ 17 + val.toNat)

/-- The slot of an operand (R59). -/
def encodeSlot : Operand → Slot
  | .reg r => packSlot 0 0 r.id 0
  | .imm v => packSlot 1 0 0 v
  | .mem b neg d => packSlot 2 neg.toNat b.id d

/-- A word from its opcode number, operand count and slots (R58), `RSV0` being 0. -/
def packWord (opc nops : Nat) (s0 s1 : Slot) : InstrWord :=
  BitVec.ofNat 64 (opc * 2 ^ 60 + nops * 2 ^ 58 + s0.toNat * 2 ^ 24 + s1.toNat)

/-- The word of a two-operand instruction. -/
def encodeTwo (opc : Nat) (dst src : Operand) : InstrWord := packWord opc 2 (encodeSlot dst) (encodeSlot src)

/-- The word of a one-operand instruction; its second slot is zero. -/
def encodeOne (opc : Nat) (op : Operand) : InstrWord := packWord opc 1 (encodeSlot op) 0

/-- The word of an instruction, with the opcode number of R60. -/
def encode : Instr → InstrWord
  | .mov dst src => encodeTwo 0 dst src
  | .add dst src => encodeTwo 1 dst src
  | .sub dst src => encodeTwo 2 dst src
  | .cmp dst src => encodeTwo 3 dst src
  | .jmp target => encodeOne 4 target
  | .jne target => encodeOne 5 target
  | .je target => encodeOne 6 target
  | .push src => encodeOne 7 src
  | .pop dst => encodeOne 8 dst
  | .call target => encodeOne 9 target
  | .ret => packWord 10 0 0 0
  | .mul src => encodeOne 11 src
  | .nop => packWord 12 0 0 0

/-! ## The host's reading of a table word -/

/-- The instruction the decoder reads from the word with bits `w`. Every row of the table has the whole 64 bits, so an
instruction is one word and `nbits` adds nothing; a number of more than 64 bits is no word (log entry 14). -/
def decodeTableWord (_nbits w : Nat) : Option Instr :=
  if w < 2 ^ 64 then (decode (BitVec.ofNat 64 w)).toOption else none

end Sys2Proof
end

