-- ==== Sys2Proof/Config.lean ====
section
/-! DEFINITION. What is fixed at load (00_scope.md R7, 10_state.md R29, R30): the parameters, the instruction store and
the data image. No step writes any of it. -/

namespace Sys2Proof

/-- The configuration of R30. Bounds are integers, since addresses are (R34, R39). -/
structure Config where
  /-- Address of instruction 0. -/
  textBase : Int
  /-- First address past the text segment. -/
  textLimit : Int
  /-- Address of data byte 0. -/
  dataBase : Int
  /-- First address past the data segment. -/
  dataLimit : Int
  /-- Lowest writable address. -/
  stackLo : Int
  /-- First address past the writable (stack) segment. -/
  stackHi : Int
  /-- Reset value of `sp` and `bp`. -/
  stackBase : Word
  /-- Reset value of `ip`. -/
  entry : Word
  /-- History capacity; `none` is unbounded. -/
  maxHistory : Option Nat
  /-- Whether a 16-bit write also checks the address of its high byte (R37). -/
  checkHighByte : Bool
  /-- Whether the `sub sp,2` inside `push` and `call` writes `zf` (R98). -/
  pushSetsZf : Bool
  /-- The instruction store (R33). -/
  store : List InstrWord
  /-- The data image (R32). -/
  dataImage : List Byte
deriving DecidableEq, Repr

namespace Config

/-- `N_INSTR`: the number of entries in the instruction store. -/
def nInstr (c : Config) : Nat := c.store.length

/-- `DATA_SIZE`: the number of bytes in the data image. -/
def dataSize (c : Config) : Nat := c.dataImage.length

/-- The address ranges `[lo, hi)` and `[lo', hi')` share no address (an empty range shares none: log entry 10). -/
abbrev Apart (lo hi lo' hi' : Int) : Prop := hi ≤ lo' ∨ hi' ≤ lo ∨ hi ≤ lo ∨ hi' ≤ lo'

/-- The constraints R7 puts on the parameters; the host must supply parameters that meet them (R110). -/
abbrev WellFormed (c : Config) : Prop :=
  0 ≤ c.textBase ∧ c.textBase + c.nInstr ≤ c.textLimit ∧ c.textLimit ≤ 0x10000
  ∧ c.dataBase + c.dataSize ≤ c.dataLimit ∧ c.dataLimit ≤ 0x10000
  ∧ c.stackLo ≤ (c.stackBase.toNat : Int) - 2 ∧ (c.stackBase.toNat : Int) - 2 < c.stackHi ∧ c.stackHi ≤ 0x10000
  ∧ 2 ≤ c.stackBase.toNat
  ∧ c.textBase ≤ (c.entry.toNat : Int)
  ∧ (∀ m ∈ c.maxHistory, 2 ≤ m)
  ∧ Apart c.textBase c.textLimit c.dataBase c.dataLimit
  ∧ Apart c.textBase c.textLimit c.stackLo c.stackHi
  ∧ Apart c.dataBase c.dataLimit c.stackLo c.stackHi

/-- The parameters of the example configuration EX1 (R8) with a given store, image and entry. -/
def ex1 (store : List InstrWord) (dataImage : List Byte) (entry : Word) : Config where
  textBase := 0x0100
  textLimit := 0x0200
  dataBase := 0x0200
  dataLimit := 0x0300
  stackLo := 0x0F00
  stackHi := 0x1000
  stackBase := 0x1000
  entry := entry
  maxHistory := none
  checkHighByte := false
  pushSetsZf := false
  store := store
  dataImage := dataImage

/-- DESIGN CHOICE (log entry 2): the configuration `State.reset` carries is EX1 with no instruction, no data and
`ENTRY = TEXT_BASE`. The spec gives no values (R7, D3); no statement rests on these. -/
def atReset : Config := ex1 [] [] 0x0100

end Config

end Sys2Proof
end

