-- ==== Sys2Proof/Machine/State.lean ====
section
/-! DEFINITION. The machine's state (10_state.md R13, R20, R24, R26, R27, R30), the reasons a step can stop, and the state
after reset (R31). -/

namespace Sys2Proof.Machine

/-- The nine 16-bit registers (R13). -/
structure Registers where
  ax : Word
  bx : Word
  cx : Word
  dx : Word
  si : Word
  di : Word
  bp : Word
  sp : Word
  ip : Word
deriving DecidableEq, Repr

/-- The flag register (R20). -/
structure Flags where
  zf : Bool
  cf : Bool
  of : Bool
deriving DecidableEq, Repr

/-- Byte memory, a total map from all integers to bytes (R34), as two lists of cells in one canonical form (log entry 6):
an address `n ≥ 0` is key `n` of `atNat`, an address `-(n + 1)` is key `n` of `atNegSucc`. -/
structure Memory where
  atNat : List Host.Cell
  atNegSucc : List Host.Cell
deriving DecidableEq, Repr

/-- A snapshot: registers, flags and the whole byte memory (R26). -/
structure Snapshot where
  regs : Registers
  flags : Flags
  mem : Memory
deriving DecidableEq, Repr

/-- The four fault kinds an engine step raises (60_exceptions.md R112). -/
inductive FaultKind where
  | invalidAddress
  | invalidOperand
  | segmentViolation
  | unsupportedOpcode
deriving DecidableEq, Repr

/-- The record of the fault latch (R24). -/
structure FaultRecord where
  kind : FaultKind
  faultIp : Word
  faultAddr : Int
deriving DecidableEq, Repr

/-- Why a step stops with a fault. -/
inductive Fault where
  /-- Raised by `step` alone, when the latch is already set: the engine is halted, `step()` changes nothing and returns the
  latched record again (40_fetch_decode_execute.md R82). Safe: it is what the spec says (log entry 3). -/
  | latched (r : FaultRecord)
deriving DecidableEq, Repr

/-- Why a step is refused. -/
inductive Refusal where
  /-- Raised by `exec` for an instruction without a meaning; no arm uses it. Safe. -/
  | notModelled (mnemonic : String)
  /-- Raised by `step` alone, when a bounded history is full: `Refused(HistoryFull)` with no state change
  (44_snapshot_host.md R107). Safe: it is what the spec says (log entry 4). -/
  | historyFull
deriving DecidableEq, Repr

/-- The machine of R30: the active snapshot `top` and the entries below it (newest first), which together are the
non-empty history stack `H` (R27); the fault latch (R24); and the configuration, which no step changes (R29; log entry 1). -/
structure State where
  cfg : Config
  top : Snapshot
  below : List Snapshot
  fault : Option FaultRecord
deriving DecidableEq, Repr

/-- The initial registers of R31. -/
def Registers.initial (c : Config) : Registers where
  ax := 0
  bx := 0
  cx := 0
  dx := 0
  si := 0
  di := 0
  bp := c.stackBase
  sp := c.stackBase
  ip := c.entry

/-- The initial flags of R31. -/
def Flags.initial : Flags := ⟨false, false, false⟩

/-- Memory with nothing listed: every address reads 0 (R34). -/
def Memory.empty : Memory := ⟨[], []⟩

/-- The machine right after reset (R31) in the configuration of log entry 2, whose data image is empty. -/
def State.reset : State where
  cfg := Config.atReset
  top := ⟨Registers.initial Config.atReset, Flags.initial, Memory.empty⟩
  below := []
  fault := none

end Sys2Proof.Machine
end

