-- ==== Sys2Proof/Machine/Flags.lean ====
section
/-! DEFINITION. Arithmetic on 16-bit values and every flag computation (00_scope.md R10; 10_state.md R21;
41_move_arith.md R87, R92). -/

namespace Sys2Proof.Machine

/-- `trunc16(v) = v mod 0x10000`, the non-negative remainder (R10). -/
def trunc16 (v : Int) : Word := BitVec.ofInt 16 v

/-- `trunc16(d + s)` (R87). -/
def add16 (d s : Word) : Word := trunc16 ((d.toNat : Int) + s.toNat)

/-- `trunc16(d - s)` (R87). -/
def sub16 (d s : Word) : Word := trunc16 ((d.toNat : Int) - s.toNat)

/-- The exact product of two unsigned 16-bit values (R87). -/
def product (x y : Word) : Nat := x.toNat * y.toNat

/-- `p[15:0]` of a product (R92). -/
def productLow (p : Nat) : Word := BitVec.ofNat 16 p

/-- `p[31:16]` of a product (R92). -/
def productHigh (p : Nat) : Word := BitVec.ofNat 16 (p / 0x10000)

/-- `zf` from a truncated result (R21, R87). -/
def zeroFlag (r : Word) : Bool := r == 0

/-- `cf` and `of` from the high half of a product (R21, R92). -/
def wideFlag (hi : Word) : Bool := hi != 0

/-- `F.zf <- b`. -/
def State.setZf (s : State) (b : Bool) : State :=
  { s with top := { s.top with flags := { s.top.flags with zf := b } } }

/-- `F.cf <- b`. -/
def State.setCf (s : State) (b : Bool) : State :=
  { s with top := { s.top with flags := { s.top.flags with cf := b } } }

/-- `F.of <- b`. -/
def State.setOf (s : State) (b : Bool) : State :=
  { s with top := { s.top with flags := { s.top.flags with of := b } } }

end Sys2Proof.Machine
end

