-- ==== Sys2Proof/Machine/Memory.lean ====
section
/-! DEFINITION. Operations on byte memory (20_memory.md R34, R40, R44) and its canonical form (log entry 6). -/

namespace Sys2Proof.Machine

/-- What an address with no entry reads as: "addresses not yet written read as zero" (R34). -/
def unlistedByte : Byte := 0

/-- The byte at key `n`. -/
def readCells : List Host.Cell → Nat → Byte
  | [], _ => unlistedByte
  | (k, b) :: rest, n => if k = n then b else readCells rest n

/-- Make key `n` read as `v`, keeping the canonical form: writing the unlisted byte removes the entry. -/
def writeCells : List Host.Cell → Nat → Byte → List Host.Cell
  | [], n, v => if v = unlistedByte then [] else [(n, v)]
  | (k, b) :: rest, n, v =>
    if n < k then (if v = unlistedByte then (k, b) :: rest else (n, v) :: (k, b) :: rest)
    else if n = k then (if v = unlistedByte then rest else (n, v) :: rest)
    else (k, b) :: writeCells rest n v

/-- The canonical form of one list: keys strictly rising, no entry equal to the unlisted byte. -/
abbrev cellsWf (l : List Host.Cell) : Prop := l.Pairwise (fun x y => x.1 < y.1) ∧ ∀ c ∈ l, c.2 ≠ unlistedByte

/-- The canonical form of memory. -/
abbrev Memory.wf (m : Memory) : Prop := cellsWf m.atNat ∧ cellsWf m.atNegSucc

/-- The byte at an integer address (R34). A read has no side effect and is never checked (R38, R48). -/
def Memory.read (m : Memory) : Int → Byte
  | .ofNat n => readCells m.atNat n
  | .negSucc n => readCells m.atNegSucc n

/-- Write one byte. -/
def Memory.write (m : Memory) (a : Int) (v : Byte) : Memory :=
  match a with
  | .ofNat n => { m with atNat := writeCells m.atNat n v }
  | .negSucc n => { m with atNegSucc := writeCells m.atNegSucc n v }

/-- A 16-bit word from its low and high bytes (R40). -/
def wordOfBytes (lo hi : Byte) : Word := BitVec.ofNat 16 (lo.toNat + 0x100 * hi.toNat)

/-- `v[7:0]` (R41). -/
def lowByte (v : Word) : Byte := BitVec.ofNat 8 v.toNat

/-- `v[15:8]` (R41). -/
def highByte (v : Word) : Byte := BitVec.ofNat 8 (v.toNat / 0x100)

/-- `MemRead(addr, 2)`: low byte at `addr`, high byte at `addr + 1` (R40), at any alignment (R46). -/
def Memory.readWord (m : Memory) (a : Int) : Word := wordOfBytes (m.read a) (m.read (a + 1))

/-- The two byte writes of `MemWrite(addr, 2, v)`, after its check (R41). -/
def Memory.writeWord (m : Memory) (a : Int) (v : Word) : Memory := (m.write a (lowByte v)).write (a + 1) (highByte v)

/-- Place bytes at rising addresses from `a` on, as load places the data image (10_state.md R32). -/
def Memory.place (m : Memory) (a : Int) : List Byte → Memory
  | [] => m
  | b :: rest => (m.write a b).place (a + 1) rest

end Sys2Proof.Machine
end

