-- ==== Sys2Proof/Machine/Ops.lean ====
section
/-! DEFINITION. The shared operations of a step: registers, checked stores, raising a fault and undoing it, the checked
jump, the stages before dispatch (00_scope.md R11; 20_memory.md R37, R41; 40_fetch_decode_execute.md R79, R81;
42_control_transfer.md R93; 44_snapshot_host.md R103, R104). -/

namespace Sys2Proof.Machine

/-! ## Registers -/

/-- The value of a register. -/
def Registers.get (r : Registers) : RegId → Word
  | .ax => r.ax
  | .bx => r.bx
  | .cx => r.cx
  | .dx => r.dx
  | .si => r.si
  | .di => r.di
  | .bp => r.bp
  | .sp => r.sp
  | .ip => r.ip

/-- The registers with one of them replaced. -/
def Registers.set (r : Registers) (i : RegId) (v : Word) : Registers :=
  match i with
  | .ax => { r with ax := v }
  | .bx => { r with bx := v }
  | .cx => { r with cx := v }
  | .dx => { r with dx := v }
  | .si => { r with si := v }
  | .di => { r with di := v }
  | .bp => { r with bp := v }
  | .sp => { r with sp := v }
  | .ip => { r with ip := v }

/-- `x[r]` of the active snapshot (R11). -/
def State.reg (s : State) (r : RegId) : Word := s.top.regs.get r

/-- `x[r] <- v`; the value is already 16 bits (R14). -/
def State.setReg (s : State) (r : RegId) (v : Word) : State :=
  { s with top := { s.top with regs := s.top.regs.set r v } }

/-! ## Taking a fault, and the return from one -/

/-- How the statements of a handler leave the machine (R12): `.ok s` goes on from `s`, `.error s` is the machine a `raise`
abandoned the step with. -/
abbrev Run := Except State State

/-- The outcome of a handler. A raised fault is a next state too, with the latch set (log entry 3). -/
def Run.outcome : Run → Host.Outcome State Fault Refusal
  | .ok s => .next s
  | .error s => .next s

/-- `a`, the fetch address of the step under way: `ip` before the pre-increment (R17, R79). No rule raises a fault after
it has written `ip` otherwise, so `ip - 1` is `a` wherever a fault is raised (DEDUCED, log entry 5). -/
def State.fetchAddress (s : State) : Word := sub16 s.top.regs.ip 1

/-- `raise K(fault_addr = f)`: latch the record and keep in `top` whatever the step has done (R81, R116). Nothing else
changes. -/
def State.raise (s : State) (k : FaultKind) (f : Int) : State :=
  { s with fault := some ⟨k, s.fetchAddress, f⟩ }

/-- `prev()`, the only way back from a fault (60_exceptions.md R117): discard `top`, restore the entry below and clear the
latch; no effect when one entry remains (R104). -/
def State.prev (s : State) : State :=
  match s.below with
  | [] => s
  | e :: rest => { s with top := e, below := rest, fault := none }

/-! ## Data memory -/

/-- `Writable(addr)` (R37). -/
def writable (c : Config) (a : Int) : Bool := decide (c.stackLo ≤ a) && decide (a < c.stackHi)

/-- The whole check of a 16-bit write at `a` (R37, R41). -/
def writableWord (c : Config) (a : Int) : Bool := writable c a && (!c.checkHighByte || writable c (a + 1))

/-- `MemRead(addr, 2)` on the active snapshot; it never faults (R38, R40). -/
def State.memRead (s : State) (a : Int) : Word := s.top.mem.readWord a

/-- The active snapshot with a word stored at `a`. -/
def State.storeWord (s : State) (a : Int) (v : Word) : State :=
  { s with top := { s.top with mem := s.top.mem.writeWord a v } }

/-- `MemWrite(addr, 2, v)`: both bytes, or SegmentViolation and neither (R41). -/
def State.memWrite (s : State) (a : Int) (v : Word) : Run :=
  if writableWord s.cfg a then .ok (s.storeWord a v) else .error (s.raise .segmentViolation a)

/-! ## Control transfer -/

/-- `TEXT_BASE <= t < TEXT_LIMIT` (R93). -/
def inText (c : Config) (t : Word) : Bool :=
  decide (c.textBase ≤ (t.toNat : Int)) && decide ((t.toNat : Int) < c.textLimit)

/-- `Jump(t)` (R93). -/
def State.jump (s : State) (t : Word) : Run :=
  if inText s.cfg t then .ok (s.setReg .ip t) else .error (s.raise .invalidAddress t.toNat)

/-! ## The stages before dispatch -/

/-- `|H|` (10_state.md R27). -/
def State.depth (s : State) : Nat := s.below.length + 1

/-- The history has its configured capacity, by the test R79 makes. -/
def State.historyFull (s : State) : Bool :=
  match s.cfg.maxHistory with
  | none => false
  | some m => s.depth == m

/-- Stage 1: push a copy of `top`, which becomes the new `top` (R103). -/
def State.pushSnapshot (s : State) : State := { s with below := s.top :: s.below }

/-- Stages 1 and 2: the push and the pre-increment of `ip` (R79). -/
def State.beginStep (s : State) : State := s.pushSnapshot.setReg .ip (add16 s.top.regs.ip 1)

/-- The word of the instruction store at address `a` (20_memory.md R33); `none` where the index is out of range, an index
below 0 included (R79). -/
def fetchWord (c : Config) (a : Word) : Option InstrWord :=
  let i := (a.toNat : Int) - c.textBase
  if i < 0 then none else c.store[i.toNat]?

/-- Stages 3 and 4: fetch and decode, with the fault they raise and its `fault_addr` (R79, 30_encoding.md R65). -/
def fetchDecode (c : Config) (a : Word) : Except (FaultKind × Int) Instr :=
  match fetchWord c a with
  | none => .error (.invalidAddress, a.toNat)
  | some w =>
    match decode w with
    | .error .unsupportedOpcode => .error (.unsupportedOpcode, 0)
    | .error .invalidOperand => .error (.invalidOperand, 0)
    | .ok i => .ok i

/-! ## Placing an instruction where the next step fetches it -/

/-- The word of `nop` (30_encoding.md R68). -/
def nopWord : InstrWord := 0xC000000000000000

/-- The list with `w` at index `i`, filled up with `nop` words where it is too short. -/
def placeWord (l : List InstrWord) (i : Nat) (w : InstrWord) : List InstrWord :=
  (l ++ List.replicate (i + 1 - l.length) nopWord).set i w

/-- The configuration with `w` at address `a` of the instruction store and every other address of the store as before. An
address below `TEXT_BASE` moves `TEXT_BASE` down to it. -/
def withStoreWord (c : Config) (a : Word) (w : InstrWord) : Config :=
  let i := (a.toNat : Int) - c.textBase
  if i < 0 then { c with textBase := a.toNat, store := w :: (List.replicate ((-i).toNat - 1) nopWord ++ c.store) }
  else { c with store := placeWord c.store i.toNat w }

end Sys2Proof.Machine
end

