-- ==== Sys2Proof/Machine/Operands.lean ====
section
/-! DEFINITION. Effective addresses, the two operand primitives and the operand-pair check (20_memory.md R39, R42, R43;
40_fetch_decode_execute.md R83). -/

namespace Sys2Proof.Machine

/-- `EA(op)` of a Memory operand: `x[base] + disp`, or `x[base] - disp` when `neg`, on unbounded integers (R39). -/
def State.effAddr (s : State) (base : RegId) (neg : Bool) (disp : Word) : Int :=
  if neg then ((s.reg base).toNat : Int) - disp.toNat else ((s.reg base).toNat : Int) + disp.toNat

/-- `ReadOp(op)` (R42): it never faults and changes nothing. -/
def State.readOp (s : State) : Operand → Word
  | .reg r => s.reg r
  | .imm v => v
  | .mem b neg d => s.memRead (s.effAddr b neg d)

/-- `WriteOp(op, v)` (R43). -/
def State.writeOp (s : State) (op : Operand) (v : Word) : Run :=
  match op with
  | .reg r => .ok (s.setReg r v)
  | .imm _ => .error (s.raise .invalidOperand 0)
  | .mem b neg d => s.memWrite (s.effAddr b neg d) v

/-- `CheckPair(dst, src, forced)` (R83). `forced` is true only for the store inside `push` and `call`, whose destination is
the stack slot. -/
def State.checkPair (s : State) (dst src : Operand) (forced : Bool) : Run :=
  if dst.isImm then .error (s.raise .invalidOperand 0)
  else if dst.isMem && src.isMem && !forced then .error (s.raise .invalidOperand 0)
  else .ok s

end Sys2Proof.Machine
end

