-- ==== Sys2Proof/Machine/ControlTransfer.lean ====
section
/-! DEFINITION. jmp, jne and je (42_control_transfer.md R93 to R96). -/

namespace Sys2Proof.Machine

/-- `Jump(ReadOp(target))`, what `jmp` does and a taken `jne` or `je` delegates to (R94, R95, R96). -/
def State.jumpTo (s : State) (target : Operand) : Run := s.jump (s.readOp target)

/-- `jmp target` (R94). -/
def execJmp (target : Operand) (s : State) : Host.Outcome State Fault Refusal :=
  Run.outcome (s.jumpTo target)

/-- `jne target` (R95): a jump that is not taken checks nothing. -/
def execJne (target : Operand) (s : State) : Host.Outcome State Fault Refusal :=
  Run.outcome (if s.top.flags.zf then .ok s else s.jumpTo target)

/-- `je target` (R96): a jump that is not taken checks nothing. -/
def execJe (target : Operand) (s : State) : Host.Outcome State Fault Refusal :=
  Run.outcome (if s.top.flags.zf then s.jumpTo target else .ok s)

end Sys2Proof.Machine
end

