-- ==== Sys2Proof/Machine/MoveArith.lean ====
section
/-! DEFINITION. mov, add, sub, cmp and mul (41_move_arith.md R88 to R92), each in the order of its pseudocode (R84). -/

namespace Sys2Proof.Machine

/-- `mov dst, src` (R88). -/
def execMov (dst src : Operand) (s : State) : Host.Outcome State Fault Refusal :=
  Run.outcome do
    let s ← s.checkPair dst src false
    s.writeOp dst (s.readOp src)

/-- `add dst, src` (R89): it writes no flag. -/
def execAdd (dst src : Operand) (s : State) : Host.Outcome State Fault Refusal :=
  Run.outcome do
    let s ← s.checkPair dst src false
    s.writeOp dst (add16 (s.readOp dst) (s.readOp src))

/-- `sub dst, src` (R90): the destination is written before `zf`, so a refused write leaves `zf` alone. -/
def execSub (dst src : Operand) (s : State) : Host.Outcome State Fault Refusal :=
  Run.outcome do
    let s ← s.checkPair dst src false
    let r := sub16 (s.readOp dst) (s.readOp src)
    let s ← s.writeOp dst r
    .ok (s.setZf (zeroFlag r))

/-- `cmp dst, src` (R91): only `zf` is written. -/
def execCmp (dst src : Operand) (s : State) : Host.Outcome State Fault Refusal :=
  Run.outcome do
    let s ← s.checkPair dst src false
    .ok (s.setZf (zeroFlag (sub16 (s.readOp dst) (s.readOp src))))

/-- The register writes and flags of `mul` for a product `p` (R92). -/
def State.writeProduct (s : State) (p : Nat) : State :=
  let s := s.setReg .ax (productLow p)
  let s := s.setReg .dx (productHigh p)
  let s := s.setCf (wideFlag (productHigh p))
  s.setOf (wideFlag (productHigh p))

/-- `mul src` (R92): Register operands only. -/
def execMul (src : Operand) (s : State) : Host.Outcome State Fault Refusal :=
  Run.outcome <|
    if src.isReg then .ok (s.writeProduct (product (s.reg .ax) (s.readOp src)))
    else .error (s.raise .invalidOperand 0)

end Sys2Proof.Machine
end

