-- ==== Sys2Proof/Machine/StackMisc.lean ====
section
/-! DEFINITION. push, pop, call, ret and nop (43_stack_misc.md R98 to R102), each in the order of its pseudocode
(70_reset_and_hazards.md R132). -/

namespace Sys2Proof.Machine

/-- The `sub sp,2` of `push` and `call`, which writes `zf` only with `PUSH_SETS_ZF` (R98). -/
def State.lowerSp (s : State) : State :=
  let sp' := sub16 (s.reg .sp) 2
  let s' := s.setReg .sp sp'
  if s.cfg.pushSetsZf then s'.setZf (zeroFlag sp') else s'

/-- The `sp += 2` of `pop` and `ret` (R99, R101). -/
def State.raiseSp (s : State) : State := s.setReg .sp (add16 (s.reg .sp) 2)

/-- `push src` (R98): the source is read after the decrement, and the store is forced past the pair check. -/
def execPush (src : Operand) (s : State) : Host.Outcome State Fault Refusal :=
  let s := s.lowerSp
  Run.outcome (s.memWrite (s.reg .sp).toNat (s.readOp src))

/-- `pop dst` (R99): the increment applies to `sp` as the write left it. -/
def execPop (dst : Operand) (s : State) : Host.Outcome State Fault Refusal :=
  Run.outcome <|
    if dst.isImm then .error (s.raise .invalidOperand 0)
    else do
      let s ← s.writeOp dst (s.memRead (s.reg .sp).toNat)
      .ok s.raiseSp

/-- `call target` (R100): push the incremented `ip`, then jump to the target read after the push. -/
def execCall (target : Operand) (s : State) : Host.Outcome State Fault Refusal :=
  let s := s.lowerSp
  Run.outcome do
    let s ← s.memWrite (s.reg .sp).toNat (s.reg .ip)
    s.jump (s.readOp target)

/-- `ret` (R101): the jump comes first, so a refused jump leaves `sp` alone. -/
def execRet (s : State) : Host.Outcome State Fault Refusal :=
  Run.outcome do
    let s ← s.jump (s.memRead (s.reg .sp).toNat)
    .ok s.raiseSp

/-- `nop` (R102): the step's only changes are those of stages 1 and 2. -/
def execNop (s : State) : Host.Outcome State Fault Refusal := Run.outcome (.ok s)

end Sys2Proof.Machine
end

