-- ==== Sys2Proof/Machine/Dispatch.lean ====
section
/-! DEFINITION. Stage 5: one arm per instruction (40_fetch_decode_execute.md R80). -/

namespace Sys2Proof.Machine

/-- The handler of each opcode, run after stages 1 and 2 (R79, R80). -/
def exec (i : Instr) (s : State) : Host.Outcome State Fault Refusal :=
  match i with
  | .mov dst src => Sys2Proof.Machine.execMov dst src s
  | .add dst src => Sys2Proof.Machine.execAdd dst src s
  | .sub dst src => Sys2Proof.Machine.execSub dst src s
  | .cmp dst src => Sys2Proof.Machine.execCmp dst src s
  | .jmp target => Sys2Proof.Machine.execJmp target s
  | .jne target => Sys2Proof.Machine.execJne target s
  | .je target => Sys2Proof.Machine.execJe target s
  | .push src => Sys2Proof.Machine.execPush src s
  | .pop dst => Sys2Proof.Machine.execPop dst s
  | .call target => Sys2Proof.Machine.execCall target s
  | .ret => Sys2Proof.Machine.execRet s
  | .mul src => Sys2Proof.Machine.execMul src s
  | .nop => Sys2Proof.Machine.execNop s

end Sys2Proof.Machine
end

