-- ==== Sys2Proof/Machine/Step.lean ====
section
/-! DEFINITION. One call of `step()` (40_fetch_decode_execute.md R79). -/

namespace Sys2Proof.Machine

/-- `step()` of R79. A set latch answers `.fault (.latched r)` (log entry 3), a full history `.refused .historyFull`
(log entry 4), and in both the machine stays as it is. Otherwise the answer is a next state, with the latch set if the step
raised a fault. -/
def step (s : State) : Host.Outcome State Fault Refusal :=
  match s.fault with
  | some r => .fault (.latched r)
  | none =>
    if s.historyFull then .refused .historyFull
    else
      match fetchDecode s.cfg s.top.regs.ip with
      | .error (k, f) => .next (s.beginStep.raise k f)
      | .ok i => exec i s.beginStep

/-- The machine whose very next step fetches the word with bits `w` at its `ip`: what a load with that word in the store
gives. The latch and a full history would keep a step from fetching, so the latch is cleared and a full history made
unbounded (log entry 7). Every row of the table has 64 bits, so `nbits` adds nothing. -/
def State.withFetchWord (s : State) (_nbits w : Nat) : State :=
  let c := withStoreWord s.cfg s.top.regs.ip (BitVec.ofNat 64 w)
  { s with cfg := if s.historyFull then { c with maxHistory := none } else c, fault := none }

end Sys2Proof.Machine
end

