-- ==== Sys2Proof/Machine/HostCalls.lean ====
section
/-! DEFINITION. The host's calls on the block (44_snapshot_host.md R108 to R111; 70_reset_and_hazards.md R126). `step()` is
`step`, `prev()` is `State.prev`, and `load` of source text and `instructions()` are in Loader.lean and Text.lean. -/

namespace Sys2Proof.Machine

/-- `S0` (10_state.md R31): initial registers and flags, the data image at `DATA_BASE`, 0 elsewhere (R32). -/
def Snapshot.initial (c : Config) : Snapshot :=
  ⟨Registers.initial c, Flags.initial, Memory.empty.place c.dataBase c.dataImage⟩

/-- Load at the block's boundary: the store, the data image and `ENTRY` of the configuration, `H = [S0]` and no latched
fault (R126). The host supplies parameters that meet R7 (R110); load does not check them (log entry 9). -/
def load (c : Config) : State where
  cfg := c
  top := Snapshot.initial c
  below := []
  fault := none

/-- What the call `step()` returns (R109). -/
inductive StepResult where
  | ok
  | err (r : FaultRecord)
  | historyFull
deriving DecidableEq, Repr

/-- The call `step()`: its result and the machine after it (R109). -/
def stepCall (s : State) : StepResult × State :=
  match step s with
  | .next t =>
    match t.fault with
    | none => (.ok, t)
    | some r => (.err r, t)
  | .fault (.latched r) => (.err r, s)
  | .refused _ => (.historyFull, s)

/-- `registers()` (R108). -/
def State.registers (s : State) : Registers := s.top.regs

/-- `flags()` (R108). -/
def State.flags (s : State) : Flags := s.top.flags

/-- `memory_read(addr)` (R108): any integer address, never a fault. -/
def State.memoryRead (s : State) (a : Int) : Word := s.memRead a

/-- `instruction_pointer()` (R108). -/
def State.instructionPointer (s : State) : Word := s.top.regs.ip

/-- The code of a fault kind, 1 to 4 (60_exceptions.md R112). -/
def FaultKind.code : FaultKind → BitVec 3
  | .invalidAddress => 1
  | .invalidOperand => 2
  | .segmentViolation => 3
  | .unsupportedOpcode => 4

/-- The `kind` field of the fault latch, 0 while it holds no record (10_state.md R24). -/
def State.latchCode (s : State) : BitVec 3 :=
  match s.fault with
  | none => 0
  | some r => r.kind.code

end Sys2Proof.Machine
end

