-- ==== Sys2Proof/Machine/Text.lean ====
section
/-! DEFINITION. The display text of instructions, `instructions()` (30_encoding.md R78; 44_snapshot_host.md R108). A text is
a list of characters. -/

namespace Sys2Proof.Machine

/-- A text. -/
abbrev Text := List Char

/-- The name of a register (10_state.md R13). -/
def regName : RegId → Text
  | .ax => ['a', 'x']
  | .bx => ['b', 'x']
  | .cx => ['c', 'x']
  | .dx => ['d', 'x']
  | .si => ['s', 'i']
  | .di => ['d', 'i']
  | .bp => ['b', 'p']
  | .sp => ['s', 'p']
  | .ip => ['i', 'p']

/-- The lower-case hex digit of a number below 16. -/
def hexDigit : Nat → Char
  | 0 => '0'
  | 1 => '1'
  | 2 => '2'
  | 3 => '3'
  | 4 => '4'
  | 5 => '5'
  | 6 => '6'
  | 7 => '7'
  | 8 => '8'
  | 9 => '9'
  | 10 => 'a'
  | 11 => 'b'
  | 12 => 'c'
  | 13 => 'd'
  | 14 => 'e'
  | _ => 'f'

/-- `0x` and four lower-case hex digits (R78). -/
def showWord (v : Word) : Text :=
  ['0', 'x', hexDigit (field v 15 12), hexDigit (field v 11 8), hexDigit (field v 7 4), hexDigit (field v 3 0)]

/-- An operand in canonical text (R78): a displacement of 0 is not shown. -/
def showOperand : Operand → Text
  | .reg r => regName r
  | .imm v => showWord v
  | .mem b neg d =>
    if d = 0 then ['['] ++ regName b ++ [']']
    else ['['] ++ regName b ++ [if neg then '-' else '+'] ++ showWord d ++ [']']

/-- The mnemonic of an instruction (R60). -/
def instrMnemonic : Instr → Text
  | .mov _ _ => ['m', 'o', 'v']
  | .add _ _ => ['a', 'd', 'd']
  | .sub _ _ => ['s', 'u', 'b']
  | .cmp _ _ => ['c', 'm', 'p']
  | .jmp _ => ['j', 'm', 'p']
  | .jne _ => ['j', 'n', 'e']
  | .je _ => ['j', 'e']
  | .push _ => ['p', 'u', 's', 'h']
  | .pop _ => ['p', 'o', 'p']
  | .call _ => ['c', 'a', 'l', 'l']
  | .ret => ['r', 'e', 't']
  | .mul _ => ['m', 'u', 'l']
  | .nop => ['n', 'o', 'p']

/-- The operands of an instruction, in order (R55). -/
def instrOperands : Instr → List Operand
  | .mov dst src => [dst, src]
  | .add dst src => [dst, src]
  | .sub dst src => [dst, src]
  | .cmp dst src => [dst, src]
  | .jmp target => [target]
  | .jne target => [target]
  | .je target => [target]
  | .push src => [src]
  | .pop dst => [dst]
  | .call target => [target]
  | .ret => []
  | .mul src => [src]
  | .nop => []

/-- The operands joined by a comma and a space. -/
def showOperands : List Operand → Text
  | [] => []
  | [op] => showOperand op
  | op :: rest => showOperand op ++ [',', ' '] ++ showOperands rest

/-- An instruction in canonical text (R78). -/
def showInstr (i : Instr) : Text :=
  match instrOperands i with
  | [] => instrMnemonic i
  | ops => instrMnemonic i ++ [' '] ++ showOperands ops

/-- The text of a store word; none for a word that decodes to no instruction, whose text the spec does not state
(DESIGN CHOICE, log entry 13). -/
def showStoreWord (w : InstrWord) : Option Text := (decode w).toOption.map showInstr

/-- `(TEXT_BASE + i, text)` for the entries of a store from address `a` on. -/
def listing (a : Int) : List InstrWord → List (Int × Option Text)
  | [] => []
  | w :: rest => (a, showStoreWord w) :: listing (a + 1) rest

/-- `instructions()` (R78, R108). -/
def State.instructions (s : State) : List (Int × Option Text) := listing s.cfg.textBase s.cfg.store

end Sys2Proof.Machine
end

