-- ==== Sys2Proof/Machine/Loader.lean ====
section
/-! DEFINITION. The host-side loader, `load(source_lines)` (30_encoding.md R57, R63, R69 to R77; 44_snapshot_host.md R108;
70_reset_and_hazards.md R126). The scope leaves it out of the block (00_scope.md R4); it is here because its output is the
block's load-time input. Nothing in a step uses it. Points R69 to R77 leave open are in log entries 15 to 25. -/

namespace Sys2Proof.Machine

/-- The load-time error (R76; 60_exceptions.md R112), naming the offending token (R72). -/
structure ParseError where
  token : Text
deriving DecidableEq, Repr

/-! ## Characters and tokens -/

/-- White space (DESIGN CHOICE, log entry 15). -/
def isBlank (c : Char) : Bool := c == ' ' || c == '\t' || c == '\r' || c == '\n'

/-- The text without the white space around it (R69). -/
def trim (t : Text) : Text := ((t.dropWhile isBlank).reverse.dropWhile isBlank).reverse

/-- The text before the first `;` (R69; log entry 16). -/
def stripComment (t : Text) : Text := t.takeWhile (· != ';')

/-- The pieces between commas. -/
def splitCommas : Text → List Text
  | [] => [[]]
  | c :: rest =>
    if c == ',' then [] :: splitCommas rest
    else match splitCommas rest with
      | [] => [[c]]
      | t :: ts => (c :: t) :: ts

/-- The value of a hex digit in either case (R73). -/
def hexValue (c : Char) : Option Nat :=
  let n := c.toNat
  if 48 ≤ n ∧ n ≤ 57 then some (n - 48)
  else if 97 ≤ n ∧ n ≤ 102 then some (n - 87)
  else if 65 ≤ n ∧ n ≤ 70 then some (n - 55)
  else none

/-- The value of a run of hex digits after the value `acc`. -/
def hexDigits : Nat → Text → Option Nat
  | acc, [] => some acc
  | acc, c :: rest =>
    match hexValue c with
    | none => none
    | some d => hexDigits (16 * acc + d) rest

/-- The literal without its optional `0x` or `0X` (R73). -/
def dropHexPrefix : Text → Text
  | '0' :: 'x' :: rest => rest
  | '0' :: 'X' :: rest => rest
  | t => t

/-- A hexadecimal literal: an optional prefix and one or more hex digits (R73). -/
def parseHex (t : Text) : Option Nat :=
  match dropHexPrefix t with
  | [] => none
  | digits => hexDigits 0 digits

/-! ## Operands -/

/-- A register name (R72 case 2; log entry 21). -/
def parseReg : Text → Option RegId
  | ['a', 'x'] => some .ax
  | ['b', 'x'] => some .bx
  | ['c', 'x'] => some .cx
  | ['d', 'x'] => some .dx
  | ['s', 'i'] => some .si
  | ['d', 'i'] => some .di
  | ['b', 'p'] => some .bp
  | ['s', 'p'] => some .sp
  | ['i', 'p'] => some .ip
  | _ => none

/-- What follows the base register of a memory operand: `]`, or a sign, a hex literal of at most `0xFFFF` and `]`
(R72 case 3, R73). -/
def parseDisp (b : RegId) : Text → Option Operand
  | [']'] => some (.mem b false 0)
  | c :: rest =>
    if (c == '+' || c == '-') && rest.getLast? == some ']' then
      match parseHex rest.dropLast with
      | some n => if n ≤ 0xFFFF then some (.mem b (c == '-') (BitVec.ofNat 16 n)) else none
      | none => none
    else none
  | [] => none

/-- A bracket-delimited memory operand (R72 case 3). -/
def parseMem : Text → Option Operand
  | '[' :: x :: y :: rest => (parseReg [x, y]).bind (parseDisp · rest)
  | _ => none

/-- The label tables of a source text: offsets within their own section (R71). -/
structure Labels where
  text : List (Text × Nat)
  data : List (Text × Nat)
deriving DecidableEq, Repr

/-- A label's value: an Immediate of the low 16 bits of its segment base plus its offset (R57, R74). -/
def labelOperand (c : Config) (labels : Labels) (t : Text) : Option Operand :=
  match labels.text.lookup t with
  | some o => some (.imm (trunc16 (c.textBase + o)))
  | none =>
    match labels.data.lookup t with
    | some o => some (.imm (trunc16 (c.dataBase + o)))
    | none => none

/-- An operand token, classified in the order of R72; an immediate literal is stored as `trunc16` of its value (R63). -/
def parseOperand (c : Config) (labels : Labels) (t : Text) : Except ParseError Operand :=
  match labelOperand c labels t with
  | some op => .ok op
  | none =>
    match parseReg t with
    | some r => .ok (.reg r)
    | none =>
      match parseMem t with
      | some op => .ok op
      | none =>
        match parseHex t with
        | some n => .ok (.imm (trunc16 n))
        | none => .error ⟨t⟩

/-- The operand tokens of an instruction. -/
def parseOperands (c : Config) (labels : Labels) : List Text → Except ParseError (List Operand)
  | [] => .ok []
  | t :: rest => do
    let op ← parseOperand c labels t
    let ops ← parseOperands c labels rest
    .ok (op :: ops)

/-! ## Instructions -/

/-- The two-operand mnemonics (R60). -/
def twoOperandMnemonic : Text → Option (Operand → Operand → Instr)
  | ['m', 'o', 'v'] => some .mov
  | ['a', 'd', 'd'] => some .add
  | ['s', 'u', 'b'] => some .sub
  | ['c', 'm', 'p'] => some .cmp
  | _ => none

/-- The one-operand mnemonics (R60). -/
def oneOperandMnemonic : Text → Option (Operand → Instr)
  | ['j', 'm', 'p'] => some .jmp
  | ['j', 'n', 'e'] => some .jne
  | ['j', 'e'] => some .je
  | ['p', 'u', 's', 'h'] => some .push
  | ['p', 'o', 'p'] => some .pop
  | ['c', 'a', 'l', 'l'] => some .call
  | ['m', 'u', 'l'] => some .mul
  | _ => none

/-- The mnemonics without operands (R60). -/
def noOperandMnemonic : Text → Option Instr
  | ['r', 'e', 't'] => some .ret
  | ['n', 'o', 'p'] => some .nop
  | _ => none

/-- The instruction of a mnemonic and its operands; an unknown mnemonic or a wrong number of operands is a ParseError
(R76; log entry 20). Operand kinds are not checked (R76). -/
def buildInstr (mnemonic : Text) (ops : List Operand) : Except ParseError Instr :=
  let found := match ops with
    | [] => noOperandMnemonic mnemonic
    | [a] => (oneOperandMnemonic mnemonic).map (· a)
    | [a, b] => (twoOperandMnemonic mnemonic).map (· a b)
    | _ => none
  match found with
  | some i => .ok i
  | none => .error ⟨mnemonic⟩

/-! ## Lines -/

/-- What has been read of a source text: the section the next line belongs to, the instruction lines, the data bytes and
the labels. -/
structure Scan where
  inData : Bool
  lines : List (Text × List Text)
  data : List Byte
  labels : Labels
deriving DecidableEq, Repr

/-- Before the first line: the implicit code section (R70). Lines before the first marker of a source that has markers
belong to it too (DESIGN CHOICE, log entry 23). -/
def Scan.start : Scan := ⟨false, [], [], ⟨[], []⟩⟩

/-- Declare a label at the current offset of the current section; a name declared twice is refused (R71; log entry 18). -/
def Scan.declare (sc : Scan) (name : Text) : Except ParseError Scan :=
  if name.isEmpty || name.any isBlank || (sc.labels.text.lookup name).isSome || (sc.labels.data.lookup name).isSome then
    .error ⟨name⟩
  else if sc.inData then .ok { sc with labels := { sc.labels with data := sc.labels.data ++ [(name, sc.data.length)] } }
  else .ok { sc with labels := { sc.labels with text := sc.labels.text ++ [(name, sc.lines.length)] } }

/-- The bytes of a string literal, one per character (R70; log entry 17). -/
def stringBytes : Text → Except ParseError (List Byte)
  | [] => .ok []
  | c :: rest =>
    if c == '"' || 0xFF < c.toNat then .error ⟨[c]⟩
    else do
      let bytes ← stringBytes rest
      .ok (BitVec.ofNat 8 c.toNat :: bytes)

/-- The bytes of a quoted literal. -/
def parseString : Text → Except ParseError (List Byte)
  | '"' :: rest => if rest.getLast? == some '"' then stringBytes rest.dropLast else .error ⟨'"' :: rest⟩
  | t => .error ⟨t⟩

/-- A directive and its argument: a section marker, or `.string` in the data section (R69, R70, R77; log entry 19). -/
def Scan.directive (sc : Scan) (name arg : Text) : Except ParseError Scan :=
  match name with
  | ['.', 'd', 'a', 't', 'a'] => if arg.isEmpty then .ok { sc with inData := true } else .error ⟨arg⟩
  | ['.', 't', 'e', 'x', 't'] => if arg.isEmpty then .ok { sc with inData := false } else .error ⟨arg⟩
  | ['.', 's', 't', 'r', 'i', 'n', 'g'] =>
    if sc.inData then do
      let bytes ← parseString arg
      .ok { sc with data := sc.data ++ bytes }
    else .error ⟨name⟩
  | _ => .error ⟨name⟩

/-- An instruction line: its mnemonic and operand tokens; refused in the data section (log entry 19). -/
def Scan.instruction (sc : Scan) (mnemonic args : Text) : Except ParseError Scan :=
  if sc.inData then .error ⟨mnemonic⟩
  else .ok { sc with lines := sc.lines ++ [(mnemonic, if args.isEmpty then [] else (splitCommas args).map trim)] }

/-- One source line (R69, R71). White space ends the mnemonic or the directive's name, so it is required before an argument
(DESIGN CHOICE, log entry 24). -/
def Scan.line (sc : Scan) (l : Text) : Except ParseError Scan :=
  let t := trim (stripComment l)
  let word := t.takeWhile (!isBlank ·)
  let rest := trim (t.dropWhile (!isBlank ·))
  if t.isEmpty then .ok sc
  else if t.getLast? == some ':' then sc.declare t.dropLast
  else if t.head? == some '.' then sc.directive word rest
  else sc.instruction word rest

/-- All source lines, stopping at the first error: loading fails atomically (R76). -/
def Scan.lineList (sc : Scan) : List Text → Except ParseError Scan
  | [] => .ok sc
  | l :: rest => do
    let sc ← sc.line l
    sc.lineList rest

/-- The store words of the instruction lines, with labels rewritten once the tables are known (R57, R74). -/
def assembleLines (c : Config) (labels : Labels) : List (Text × List Text) → Except ParseError (List InstrWord)
  | [] => .ok []
  | (mnemonic, toks) :: rest => do
    let ops ← parseOperands c labels toks
    let i ← buildInstr mnemonic ops
    let words ← assembleLines c labels rest
    .ok (encode i :: words)

/-- The name of the entry-point label (R75). -/
def startName : Text := ['_', 's', 't', 'a', 'r', 't']

/-- The label tables after scanning: where no label `_start` is declared, one is synthesized at text offset 0 (R75; log
entry 22). -/
def Labels.withEntry (labels : Labels) : Labels :=
  match labels.text.lookup startName, labels.data.lookup startName with
  | none, none => { labels with text := labels.text ++ [(startName, 0)] }
  | _, _ => labels

/-- `ENTRY`: `TEXT_BASE` plus the offset of `_start`, or `TEXT_BASE` when the text has no such label (R75; log entry 22). -/
def entryOf (c : Config) (labels : Labels) : Word :=
  trunc16 (c.textBase + ((labels.text.lookup startName).getD 0 : Nat))

/-- The configuration with the store, data image and `ENTRY` of a source text; the other parameters are the host's.
Of several errors it reports the first one of the scan, else the first one of the instruction lines (DESIGN CHOICE, log
entry 25). -/
def assemble (c : Config) (lines : List Text) : Except ParseError Config := do
  let sc ← Scan.start.lineList lines
  let labels := sc.labels.withEntry
  let words ← assembleLines c labels sc.lines
  .ok { c with store := words, dataImage := sc.data, entry := entryOf c labels }

/-- `load(source_lines)`: a fresh machine or a ParseError (R108, R126). -/
def loadSource (c : Config) (lines : List Text) : Except ParseError State := do
  let c' ← assemble c lines
  .ok (load c')

end Sys2Proof.Machine
end

