-- ==== Sys2Proof/Safety.lean ====
section
/-! DEFINITION. What counts as a safe step, a halted engine and the end of a run (40_fetch_decode_execute.md R82;
44_snapshot_host.md R109, R111), and the invariant of the machine's state. -/

namespace Sys2Proof.Machine

/-- The engine is halted: the latch is set (R82). -/
def State.halted (s : State) : Prop := s.fault ≠ none

/-- The normal end of a run: no latched fault and `ip = TEXT_BASE + N_INSTR` (R111). -/
def State.atNormalEnd (s : State) : Prop :=
  s.fault = none ∧ (s.top.regs.ip.toNat : Int) = s.cfg.textBase + s.cfg.nInstr

/-- The step completes its instruction: `step()` returns `Ok` (R109). -/
def State.stepsSafely (s : State) : Prop := ∃ t, step s = .next t ∧ t.fault = none

/-- The invariant every step keeps: every snapshot's memory is in canonical form (log entry 6), a set latch stands on more
than one entry (R104), and a bounded history is within its bound (R107). -/
structure State.Inv (s : State) : Prop where
  topMem : s.top.mem.wf
  belowMem : ∀ e ∈ s.below, e.mem.wf
  latchDepth : s.fault ≠ none → 1 < s.depth
  bounded : ∀ m, s.cfg.maxHistory = some m → s.depth ≤ m

end Sys2Proof.Machine
end

