-- ==== Sys2Proof/Certificates/Slice0/Obligations.lean ====
section
/-! DEFINITION. The statements for the provers, with the predicates they are written in. Statements about an instruction
are about `exec` at a state whose `ip` is already incremented (stages 1 and 2 done, R79); statements about `step` are about
the whole call. -/

namespace Sys2Proof.Claims

open Sys2Proof.Machine

/-! ## Predicates -/

/-- The condition R37 and R41 put on a 16-bit write at `e`. -/
def CanStore (c : Config) (e : Int) : Prop :=
  c.stackLo ≤ e ∧ e < c.stackHi ∧ (c.checkHighByte = true → c.stackLo ≤ e + 1 ∧ e + 1 < c.stackHi)

/-- The condition R93 puts on a jump target. -/
def InText (c : Config) (t : Word) : Prop := c.textBase ≤ (t.toNat : Int) ∧ (t.toNat : Int) < c.textLimit

/-- Executing `i` at `s` raises the fault `k` with address `f`; `u` is `s` with the effects made before the raise. The
recorded `fault_ip` is the fetch address, `ip - 1` during the instruction (R17, R24). -/
def Raises (i : Instr) (s u : State) (k : FaultKind) (f : Int) : Prop :=
  exec i s = .next { u with fault := some ⟨k, s.top.regs.ip - 1, f⟩ }

/-- Configuration, history and latch are as before. -/
def ControlKept (s t : State) : Prop := t.cfg = s.cfg ∧ t.below = s.below ∧ t.fault = s.fault

/-- Every register but those listed is as before. -/
def RegsKept (rs : List RegId) (s t : State) : Prop := ∀ r, r ∉ rs → t.top.regs.get r = s.top.regs.get r

/-- Every byte of memory is as before. -/
def MemKept (s t : State) : Prop := ∀ a, t.top.mem.read a = s.top.mem.read a

/-- The word `v` is stored little-endian at `e` and every other byte of memory is as before. -/
def Stored (e : Int) (v : Word) (s t : State) : Prop :=
  (t.top.mem.read e).toNat = v.toNat % 0x100 ∧ (t.top.mem.read (e + 1)).toNat = v.toNat / 0x100
  ∧ ∀ a, a ≠ e → a ≠ e + 1 → t.top.mem.read a = s.top.mem.read a

/-- The destination operand holds `v`, and no other register and no other byte of memory has changed. -/
def Written (dst : Operand) (v : Word) (s t : State) : Prop :=
  match dst with
  | .reg r => t.top.regs.get r = v ∧ RegsKept [r] s t ∧ MemKept s t
  | .imm _ => False
  | .mem b neg d => RegsKept [] s t ∧ Stored (s.effAddr b neg d) v s t

/-- A Memory destination is at an address the write check accepts. -/
def DestinationOpen (dst : Operand) (s : State) : Prop :=
  ∀ b neg d, dst = .mem b neg d → CanStore s.cfg (s.effAddr b neg d)

/-- The word of `i` has the opcode number, operand count and slots given, and decodes to `i`. -/
def EncodedAs (i : Instr) (opc nops : Nat) (slot0 slot1 : Slot) : Prop :=
  field (encode i) 63 60 = opc ∧ field (encode i) 59 58 = nops ∧ field (encode i) 57 48 = 0
  ∧ field (encode i) 47 24 = slot0.toNat ∧ field (encode i) 23 0 = slot1.toNat ∧ decode (encode i) = .ok i

/-- What the `sub sp,2` of `push` and `call` makes of `s` (R98). -/
def lowered (s : State) : State :=
  { s with top := { s.top with
      regs := { s.top.regs with sp := s.top.regs.sp - 2 }
      flags := { s.top.flags with
        zf := if s.cfg.pushSetsZf then decide (s.top.regs.sp - 2 = 0) else s.top.flags.zf } } }

/-- `lowered s` with the return address stored at the new `sp` (R100). -/
def returnPushed (s : State) : State :=
  (lowered s).storeWord ((s.top.regs.sp - 2).toNat : Int) s.top.regs.ip

/-- Stages 1 and 2 of a step: the history entry and the pre-increment of `ip` (R79). -/
def begun (s : State) : State :=
  { s with top := { s.top with regs := { s.top.regs with ip := s.top.regs.ip + 1 } }, below := s.top :: s.below }

/-- The machine in which a step gets as far as its fetch: latch clear, history not full. -/
def Running (s : State) : Prop := s.fault = none ∧ s.cfg.maxHistory ≠ some s.depth

/-- The index of the store entry at `ip` (R79). -/
def fetchIndex (s : State) : Int := (s.top.regs.ip.toNat : Int) - s.cfg.textBase

/-- The store holds `w` at `ip`. -/
def FetchedWord (s : State) (w : InstrWord) : Prop :=
  0 ≤ fetchIndex s ∧ s.cfg.store[(fetchIndex s).toNat]? = some w

/-- The operand slots R66 calls illegal within the operand count. -/
def BadSlot (v : Nat) : Prop :=
  let kind := v / 2 ^ 22
  let neg := v / 2 ^ 21 % 2
  let reg := v / 2 ^ 17 % 16
  let rsv1 := v / 2 ^ 16 % 2
  let val := v % 2 ^ 16
  kind = 3 ∨ rsv1 ≠ 0 ∨ ((kind = 0 ∨ kind = 2) ∧ 9 ≤ reg) ∨ (kind = 0 ∧ (neg ≠ 0 ∨ val ≠ 0))
  ∨ (kind = 1 ∧ (neg ≠ 0 ∨ reg ≠ 0))

/-- The first two rows of R66. -/
def UnsupportedWord (w : InstrWord) : Prop := 13 ≤ w.toNat / 2 ^ 60 ∨ w.toNat / 2 ^ 48 % 2 ^ 10 ≠ 0

/-- The other rows of R66, for a word not among the first two: the operand count (R60), a slot beyond it not zero, an
illegal slot within it. -/
def BadOperandsWord (w : InstrWord) : Prop :=
  let opc := w.toNat / 2 ^ 60
  let nops := w.toNat / 2 ^ 58 % 4
  let slot0 := w.toNat / 2 ^ 24 % 2 ^ 24
  let slot1 := w.toNat % 2 ^ 24
  nops ≠ (if opc ≤ 3 then 2 else if opc = 10 ∨ opc = 12 then 0 else 1)
  ∨ (nops = 0 ∧ (slot0 ≠ 0 ∨ slot1 ≠ 0)) ∨ (nops = 1 ∧ (BadSlot slot0 ∨ slot1 ≠ 0))
  ∨ (nops = 2 ∧ (BadSlot slot0 ∨ BadSlot slot1))

end Sys2Proof.Claims

open Sys2Proof Sys2Proof.Machine Sys2Proof.Claims

/-! ## Encoding -/

/-- R58 to R61, R65: decoding the word of an instruction gives the instruction, with every operand. -/
def Obligations.DecodeOfEncodeGivesTheInstruction : Prop := ∀ i : Instr, decode (encode i) = .ok i

/-- R67: Decode is injective on the words it accepts; every instruction has exactly one accepted word, the two signs of a
zero displacement being two operands with the same effective address. -/
def Obligations.EveryInstructionHasOneAcceptedWord : Prop :=
  (∀ w w' i, decode w = .ok i → decode w' = .ok i → w = w')
  ∧ (∀ i, ∃ w, decode w = .ok i ∧ ∀ w', decode w' = .ok i → w' = w)
  ∧ (∀ (s : State) b, s.effAddr b true 0 = s.effAddr b false 0)
  ∧ (∀ b, encodeSlot (.mem b true 0) ≠ encodeSlot (.mem b false 0))

/-- R66: a running machine that fetches a reserved word raises UnsupportedOpcode or InvalidOperand with address 0, as the
table says; every other word is one of the thirteen instructions. -/
def Obligations.ReservedWordsRaiseTheirFault : Prop :=
  ∀ s w, Running s → FetchedWord s w →
    (UnsupportedWord w →
      step s = .next { begun s with fault := some ⟨.unsupportedOpcode, s.top.regs.ip, 0⟩ })
    ∧ (¬ UnsupportedWord w → BadOperandsWord w →
      step s = .next { begun s with fault := some ⟨.invalidOperand, s.top.regs.ip, 0⟩ })
    ∧ (¬ UnsupportedWord w → ¬ BadOperandsWord w → ∃ i, decode w = .ok i ∧ encode i = w)

/-- R68: the worked encodings, both ways. -/
def Obligations.WorkedEncodingsDecode : Prop :=
  (decode 0x0800000000400005 = .ok (.mov (.reg .ax) (.imm 0x05)) ∧ encode (.mov (.reg .ax) (.imm 0x05)) = 0x0800000000400005)
  ∧ (decode 0x0800020000000000 = .ok (.mov (.reg .bx) (.reg .ax))
    ∧ encode (.mov (.reg .bx) (.reg .ax)) = 0x0800020000000000)
  ∧ (decode 0x3800000000020000 = .ok (.cmp (.reg .ax) (.reg .bx))
    ∧ encode (.cmp (.reg .ax) (.reg .bx)) = 0x3800000000020000)
  ∧ (decode 0x7400000000000000 = .ok (.push (.reg .ax)) ∧ encode (.push (.reg .ax)) = 0x7400000000000000)
  ∧ (decode 0xB400020000000000 = .ok (.mul (.reg .bx)) ∧ encode (.mul (.reg .bx)) = 0xB400020000000000)
  ∧ (decode 0x08008C0002000000 = .ok (.mov (.mem .bp false 0x02) (.reg .ax))
    ∧ encode (.mov (.mem .bp false 0x02) (.reg .ax)) = 0x08008C0002000000)
  ∧ (decode 0xA000000000000000 = .ok .ret ∧ encode .ret = 0xA000000000000000)
  ∧ (decode 0xC000000000000000 = .ok .nop ∧ encode .nop = 0xC000000000000000)

/-! ## Registers, operands and memory -/

/-- R13, R14: a register written reads back, and no other register, no flag and no byte of memory changes. -/
def Obligations.RegisterWriteChangesOneRegister : Prop :=
  ∀ (s : State) r v, (s.setReg r v).top.regs.get r = v ∧ RegsKept [r] s (s.setReg r v)
    ∧ (s.setReg r v).top.flags = s.top.flags ∧ MemKept s (s.setReg r v) ∧ ControlKept s (s.setReg r v)

/-- R39: the effective address is base plus or minus displacement, not truncated, and lies in `-0xFFFF .. 0x1FFFE`. -/
def Obligations.EffectiveAddressIsUntruncated : Prop :=
  ∀ (s : State) b neg d,
    s.effAddr b neg d = (if neg then ((s.top.regs.get b).toNat : Int) - d.toNat else (s.top.regs.get b).toNat + d.toNat)
    ∧ -0xFFFF ≤ s.effAddr b neg d ∧ s.effAddr b neg d ≤ 0x1FFFE
    ∧ s.effAddr b neg 0 = (s.top.regs.get b).toNat

/-- R40, R42: what an operand reads: a register, the immediate itself, or two bytes little-endian at the effective
address. -/
def Obligations.OperandReadIsRegisterImmediateOrWord : Prop :=
  ∀ s : State, (∀ r, s.readOp (.reg r) = s.top.regs.get r) ∧ (∀ v, s.readOp (.imm v) = v)
    ∧ ∀ b neg d, (s.readOp (.mem b neg d)).toNat =
        (s.top.mem.read (s.effAddr b neg d)).toNat + 0x100 * (s.top.mem.read (s.effAddr b neg d + 1)).toNat

/-- R41: a 16-bit write stores both bytes little-endian, or raises SegmentViolation and stores neither. -/
def Obligations.CheckedStoreWritesBothBytesOrNeither : Prop :=
  ∀ (s : State) a v,
    (¬ CanStore s.cfg a →
      s.memWrite a v = .error { s with fault := some ⟨.segmentViolation, s.top.regs.ip - 1, a⟩ })
    ∧ (CanStore s.cfg a → s.top.mem.wf →
      ∃ t, s.memWrite a v = .ok t ∧ ControlKept s t ∧ t.top.regs = s.top.regs ∧ t.top.flags = s.top.flags
        ∧ Stored a v s t)

/-- R34, log entry 6 (the model's form of memory): two canonical memories that read alike at every integer address are the
same data. -/
def Obligations.CanonicalMemoriesAreExtensional : Prop :=
  ∀ m m' : Memory, m.wf → m'.wf → (∀ a, m.read a = m'.read a) → m = m'

/-! ## Instructions -/

/-- R88. -/
def Obligations.MovCopiesSourceToDestination : Prop :=
  ∀ (s : State) dst src,
    EncodedAs (.mov dst src) 0 2 (encodeSlot dst) (encodeSlot src)
    ∧ (dst.isImm = true ∨ (dst.isMem = true ∧ src.isMem = true) → Raises (.mov dst src) s s .invalidOperand 0)
    ∧ (∀ b neg d, dst = .mem b neg d → src.isMem = false → ¬ CanStore s.cfg (s.effAddr b neg d) →
        Raises (.mov dst src) s s .segmentViolation (s.effAddr b neg d))
    ∧ (dst.isImm = false → ¬ (dst.isMem = true ∧ src.isMem = true) → DestinationOpen dst s → s.top.mem.wf →
        ∃ t, exec (.mov dst src) s = .next t ∧ ControlKept s t ∧ t.top.flags = s.top.flags
          ∧ Written dst (s.readOp src) s t)

/-- R89. -/
def Obligations.AddWritesTheSumModulo16Bits : Prop :=
  ∀ (s : State) dst src,
    EncodedAs (.add dst src) 1 2 (encodeSlot dst) (encodeSlot src)
    ∧ (dst.isImm = true ∨ (dst.isMem = true ∧ src.isMem = true) → Raises (.add dst src) s s .invalidOperand 0)
    ∧ (∀ b neg d, dst = .mem b neg d → src.isMem = false → ¬ CanStore s.cfg (s.effAddr b neg d) →
        Raises (.add dst src) s s .segmentViolation (s.effAddr b neg d))
    ∧ (dst.isImm = false → ¬ (dst.isMem = true ∧ src.isMem = true) → DestinationOpen dst s → s.top.mem.wf →
        ∃ t v, exec (.add dst src) s = .next t ∧ ControlKept s t ∧ t.top.flags = s.top.flags
          ∧ v.toNat = ((s.readOp dst).toNat + (s.readOp src).toNat) % 0x10000 ∧ Written dst v s t)

/-- R90. -/
def Obligations.SubWritesTheDifferenceAndZf : Prop :=
  ∀ (s : State) dst src,
    EncodedAs (.sub dst src) 2 2 (encodeSlot dst) (encodeSlot src)
    ∧ (dst.isImm = true ∨ (dst.isMem = true ∧ src.isMem = true) → Raises (.sub dst src) s s .invalidOperand 0)
    ∧ (∀ b neg d, dst = .mem b neg d → src.isMem = false → ¬ CanStore s.cfg (s.effAddr b neg d) →
        Raises (.sub dst src) s s .segmentViolation (s.effAddr b neg d))
    ∧ (dst.isImm = false → ¬ (dst.isMem = true ∧ src.isMem = true) → DestinationOpen dst s → s.top.mem.wf →
        ∃ t v, exec (.sub dst src) s = .next t ∧ ControlKept s t
          ∧ (v.toNat : Int) = ((s.readOp dst).toNat - (s.readOp src).toNat : Int) % 0x10000 ∧ Written dst v s t
          ∧ t.top.flags = { s.top.flags with zf := decide (v = 0) })

/-- R91. -/
def Obligations.CmpWritesOnlyZf : Prop :=
  ∀ (s : State) dst src,
    EncodedAs (.cmp dst src) 3 2 (encodeSlot dst) (encodeSlot src)
    ∧ (dst.isImm = true ∨ (dst.isMem = true ∧ src.isMem = true) → Raises (.cmp dst src) s s .invalidOperand 0)
    ∧ (dst.isImm = false → ¬ (dst.isMem = true ∧ src.isMem = true) →
        ∃ t, exec (.cmp dst src) s = .next t ∧ ControlKept s t ∧ RegsKept [] s t ∧ MemKept s t
          ∧ t.top.flags = { s.top.flags with
              zf := decide (((s.readOp dst).toNat - (s.readOp src).toNat : Int) % 0x10000 = 0) })

/-- R87: the 16-bit laws: sums and differences modulo `0x10000`, the exact product of at most `0xFFFE0001`; and `zf` after
`sub` and `cmp` says that the operands are equal, since both are 16-bit values. -/
def Obligations.ZeroDifferenceMeansEqualOperands : Prop :=
  ∀ d s : Word, ((d.toNat - s.toNat : Int) % 0x10000 = 0 ↔ d = s) ∧ (sub16 d s = 0 ↔ d = s)
    ∧ (add16 d s).toNat = (d.toNat + s.toNat) % 0x10000
    ∧ ((sub16 d s).toNat : Int) = (d.toNat - s.toNat : Int) % 0x10000
    ∧ product d s = d.toNat * s.toNat ∧ product d s ≤ 0xFFFE0001

/-- R92. -/
def Obligations.MulWritesTheProductHalvesAndWideFlags : Prop :=
  ∀ (s : State) src,
    EncodedAs (.mul src) 11 1 (encodeSlot src) 0
    ∧ (src.isReg = false → Raises (.mul src) s s .invalidOperand 0)
    ∧ (∀ r, src = .reg r →
        ∃ t, exec (.mul src) s = .next t ∧ ControlKept s t ∧ RegsKept [.ax, .dx] s t ∧ MemKept s t
          ∧ t.top.regs.ax.toNat = (s.top.regs.ax.toNat * (s.top.regs.get r).toNat) % 0x10000
          ∧ t.top.regs.dx.toNat = (s.top.regs.ax.toNat * (s.top.regs.get r).toNat) / 0x10000
          ∧ t.top.flags = { s.top.flags with cf := decide (t.top.regs.dx ≠ 0), of := decide (t.top.regs.dx ≠ 0) })

/-- R93, R94. -/
def Obligations.JmpGoesToATargetInText : Prop :=
  ∀ (s : State) target,
    EncodedAs (.jmp target) 4 1 (encodeSlot target) 0
    ∧ (¬ InText s.cfg (s.readOp target) →
        Raises (.jmp target) s s .invalidAddress (s.readOp target).toNat)
    ∧ (InText s.cfg (s.readOp target) →
        ∃ t, exec (.jmp target) s = .next t ∧ ControlKept s t ∧ RegsKept [.ip] s t ∧ MemKept s t
          ∧ t.top.flags = s.top.flags ∧ t.top.regs.ip = s.readOp target)

/-- R95. -/
def Obligations.JneJumpsExactlyWhenZfIsClear : Prop :=
  ∀ (s : State) target,
    EncodedAs (.jne target) 5 1 (encodeSlot target) 0
    ∧ (s.top.flags.zf = true → exec (.jne target) s = .next s)
    ∧ (s.top.flags.zf = false → ¬ InText s.cfg (s.readOp target) →
        Raises (.jne target) s s .invalidAddress (s.readOp target).toNat)
    ∧ (s.top.flags.zf = false → InText s.cfg (s.readOp target) →
        ∃ t, exec (.jne target) s = .next t ∧ ControlKept s t ∧ RegsKept [.ip] s t ∧ MemKept s t
          ∧ t.top.flags = s.top.flags ∧ t.top.regs.ip = s.readOp target)

/-- R96. -/
def Obligations.JeJumpsExactlyWhenZfIsSet : Prop :=
  ∀ (s : State) target,
    EncodedAs (.je target) 6 1 (encodeSlot target) 0
    ∧ (s.top.flags.zf = false → exec (.je target) s = .next s)
    ∧ (s.top.flags.zf = true → ¬ InText s.cfg (s.readOp target) →
        Raises (.je target) s s .invalidAddress (s.readOp target).toNat)
    ∧ (s.top.flags.zf = true → InText s.cfg (s.readOp target) →
        ∃ t, exec (.je target) s = .next t ∧ ControlKept s t ∧ RegsKept [.ip] s t ∧ MemKept s t
          ∧ t.top.flags = s.top.flags ∧ t.top.regs.ip = s.readOp target)

/-- R98: the source is read after the decrement. -/
def Obligations.PushStoresTheSourceBelowTheStack : Prop :=
  ∀ (s : State) src,
    EncodedAs (.push src) 7 1 (encodeSlot src) 0
    ∧ (¬ CanStore s.cfg (s.top.regs.sp - 2).toNat →
        Raises (.push src) s (lowered s) .segmentViolation (s.top.regs.sp - 2).toNat)
    ∧ (CanStore s.cfg (s.top.regs.sp - 2).toNat → s.top.mem.wf →
        ∃ t, exec (.push src) s = .next t ∧ ControlKept s t ∧ RegsKept [.sp] s t
          ∧ t.top.regs.sp = s.top.regs.sp - 2 ∧ t.top.flags = (lowered s).top.flags
          ∧ Stored (s.top.regs.sp - 2).toNat ((lowered s).readOp src) s t)

/-- R99: the increment applies to `sp` as the write left it. -/
def Obligations.PopWritesTheTopWordThenRaisesSp : Prop :=
  ∀ (s : State) dst,
    EncodedAs (.pop dst) 8 1 (encodeSlot dst) 0
    ∧ (dst.isImm = true → Raises (.pop dst) s s .invalidOperand 0)
    ∧ (∀ b neg d, dst = .mem b neg d → ¬ CanStore s.cfg (s.effAddr b neg d) →
        Raises (.pop dst) s s .segmentViolation (s.effAddr b neg d))
    ∧ (dst.isImm = false → DestinationOpen dst s → s.top.mem.wf →
        ∃ t, exec (.pop dst) s = .next t ∧ ControlKept s t ∧ t.top.flags = s.top.flags
          ∧ (∀ r, dst = .reg r → r ≠ .sp → t.top.regs.get r = s.memRead s.top.regs.sp.toNat
              ∧ t.top.regs.sp = s.top.regs.sp + 2 ∧ RegsKept [r, .sp] s t ∧ MemKept s t)
          ∧ (dst = .reg .sp → t.top.regs.sp = s.memRead s.top.regs.sp.toNat + 2 ∧ RegsKept [.sp] s t ∧ MemKept s t)
          ∧ (∀ b neg d, dst = .mem b neg d → t.top.regs.sp = s.top.regs.sp + 2 ∧ RegsKept [.sp] s t
              ∧ Stored (s.effAddr b neg d) (s.memRead s.top.regs.sp.toNat) s t))

/-- R100: the return address is pushed before the target is read. -/
def Obligations.CallPushesTheReturnAddressAndJumps : Prop :=
  ∀ (s : State) target,
    EncodedAs (.call target) 9 1 (encodeSlot target) 0
    ∧ (¬ CanStore s.cfg (s.top.regs.sp - 2).toNat →
        Raises (.call target) s (lowered s) .segmentViolation (s.top.regs.sp - 2).toNat)
    ∧ (CanStore s.cfg (s.top.regs.sp - 2).toNat → ¬ InText s.cfg ((returnPushed s).readOp target) →
        Raises (.call target) s (returnPushed s) .invalidAddress ((returnPushed s).readOp target).toNat)
    ∧ (CanStore s.cfg (s.top.regs.sp - 2).toNat → InText s.cfg ((returnPushed s).readOp target) → s.top.mem.wf →
        ∃ t, exec (.call target) s = .next t ∧ ControlKept s t ∧ RegsKept [.sp, .ip] s t
          ∧ t.top.regs.sp = s.top.regs.sp - 2 ∧ t.top.regs.ip = (returnPushed s).readOp target
          ∧ t.top.flags = (lowered s).top.flags ∧ Stored (s.top.regs.sp - 2).toNat s.top.regs.ip s t)

/-- R101: the jump comes first, so a refused one leaves `sp`. -/
def Obligations.RetJumpsToTheTopWordThenRaisesSp : Prop :=
  ∀ s : State,
    EncodedAs .ret 10 0 0 0
    ∧ (¬ InText s.cfg (s.memRead s.top.regs.sp.toNat) →
        Raises .ret s s .invalidAddress (s.memRead s.top.regs.sp.toNat).toNat)
    ∧ (InText s.cfg (s.memRead s.top.regs.sp.toNat) →
        ∃ t, exec .ret s = .next t ∧ ControlKept s t ∧ RegsKept [.ip, .sp] s t ∧ MemKept s t
          ∧ t.top.flags = s.top.flags ∧ t.top.regs.ip = s.memRead s.top.regs.sp.toNat
          ∧ t.top.regs.sp = s.top.regs.sp + 2)

/-- R102: a step at `nop` changes only what stages 1 and 2 change. -/
def Obligations.NopChangesOnlyIpAndHistory : Prop :=
  EncodedAs .nop 12 0 0 0 ∧ (∀ s, exec .nop s = .next s)
  ∧ ∀ s, Running s → FetchedWord s 0xC000000000000000 → step s = .next (begun s)

/-- R21: which flags an instruction that completes writes, and with what. -/
def Obligations.FlagsAreWrittenOnlyAsTabled : Prop :=
  ∀ (i : Instr) (s t : State), s.fault = none → exec i s = .next t → t.fault = none →
    match i with
    | .sub dst src => t.top.flags = { s.top.flags with zf := decide (s.readOp dst - s.readOp src = 0) }
    | .cmp dst src => t.top.flags = { s.top.flags with zf := decide (s.readOp dst - s.readOp src = 0) }
    | .mul _ => t.top.flags = { s.top.flags with cf := decide (t.top.regs.dx ≠ 0), of := decide (t.top.regs.dx ≠ 0) }
    | .push _ => t.top.flags = { s.top.flags with
        zf := if s.cfg.pushSetsZf then decide (t.top.regs.sp = 0) else s.top.flags.zf }
    | .call _ => t.top.flags = { s.top.flags with
        zf := if s.cfg.pushSetsZf then decide (t.top.regs.sp = 0) else s.top.flags.zf }
    | .mov _ _ => t.top.flags = s.top.flags
    | .add _ _ => t.top.flags = s.top.flags
    | .jmp _ => t.top.flags = s.top.flags
    | .jne _ => t.top.flags = s.top.flags
    | .je _ => t.top.flags = s.top.flags
    | .pop _ => t.top.flags = s.top.flags
    | .ret => t.top.flags = s.top.flags
    | .nop => t.top.flags = s.top.flags

/-- R22: no instruction reads `cf` or `of`: with other values there, everything else an instruction does is the same. -/
def Obligations.NoInstructionReadsCfOrOf : Prop :=
  ∀ (i : Instr) (s t : State) (x y : Bool), exec i s = .next t →
    ∃ u, exec i { s with top := { s.top with flags := { s.top.flags with cf := x, of := y } } } = .next u
      ∧ u.top.regs = t.top.regs ∧ u.top.mem = t.top.mem ∧ u.top.flags.zf = t.top.flags.zf
      ∧ u.cfg = t.cfg ∧ u.below = t.below ∧ u.fault = t.fault

/-! ## The step, faults and history -/

/-- R79, R80: where the word at `ip` decodes to an instruction, a step is that instruction's handler after stages 1 and 2. -/
def Obligations.StepRunsTheDecodedInstruction : Prop :=
  ∀ (s : State) w i, Running s → FetchedWord s w → decode w = .ok i → step s = exec i (begun s)

/-- R79: the whole algorithm of `step()`, with what the call returns. -/
def Obligations.StepFollowsItsStages : Prop :=
  ∀ s : State,
    (∀ r, s.fault = some r → step s = .fault (.latched r) ∧ stepCall s = (.err r, s))
    ∧ (s.fault = none → s.cfg.maxHistory = some s.depth →
        step s = .refused .historyFull ∧ stepCall s = (.historyFull, s))
    ∧ (Running s → (fetchIndex s < 0 ∨ (s.cfg.nInstr : Int) ≤ fetchIndex s) →
        step s = .next { begun s with fault := some ⟨.invalidAddress, s.top.regs.ip, s.top.regs.ip.toNat⟩ }
        ∧ stepCall s = (.err ⟨.invalidAddress, s.top.regs.ip, s.top.regs.ip.toNat⟩,
            { begun s with fault := some ⟨.invalidAddress, s.top.regs.ip, s.top.regs.ip.toNat⟩ }))
    ∧ (Running s → 0 ≤ fetchIndex s → fetchIndex s < s.cfg.nInstr →
        ∃ w, FetchedWord s w
          ∧ (decode w = .error .unsupportedOpcode →
              step s = .next { begun s with fault := some ⟨.unsupportedOpcode, s.top.regs.ip, 0⟩ })
          ∧ (decode w = .error .invalidOperand →
              step s = .next { begun s with fault := some ⟨.invalidOperand, s.top.regs.ip, 0⟩ })
          ∧ (∀ i, decode w = .ok i → step s = exec i (begun s)
              ∧ ∃ t, exec i (begun s) = .next t ∧ (t.fault = none → stepCall s = (.ok, t))
                ∧ ∀ r, t.fault = some r → stepCall s = (.err r, t)))

/-- R106: whatever a step did, `prev()` right after it gives back the machine before it; a call that answered otherwise
pushed nothing. -/
def Obligations.PrevUndoesAnyStep : Prop :=
  (∀ s t, step s = .next t → t.prev = s) ∧ (∀ s, (∀ t, step s ≠ .next t) → (stepCall s).2 = s)

/-- R104. -/
def Obligations.PrevPopsOneEntryAndClearsTheLatch : Prop :=
  ∀ s : State, (∀ e rest, s.below = e :: rest → s.prev = { s with top := e, below := rest, fault := none })
    ∧ (s.depth = 1 → s.prev = s) ∧ (s.Inv → s.fault ≠ none → 1 < s.depth ∧ s.prev.fault = none)

/-- R27, R103: a step that runs leaves the old `top` unchanged below the new one, and everything below that. -/
def Obligations.StepAddsOneHistoryEntry : Prop :=
  ∀ s t, step s = .next t → t.below = s.top :: s.below ∧ t.depth = s.depth + 1

/-- R29: the store and every parameter are fixed at load: no step and no undo writes them. -/
def Obligations.ConfigurationIsNeverWritten : Prop :=
  (∀ s t, step s = .next t → t.cfg = s.cfg) ∧ (∀ s : State, (stepCall s).2.cfg = s.cfg ∧ s.prev.cfg = s.cfg)
  ∧ ∀ c, (load c).cfg = c

/-- R36, R37, R41: a step changes no byte outside the stack segment, but for the high byte of a word at its last address,
which lands at `STACK_HI` when `CHECK_HIGH_BYTE` is false. -/
def Obligations.StepChangesMemoryOnlyInTheStackSegment : Prop :=
  ∀ s t, step s = .next t → ∀ a, (a < s.cfg.stackLo ∨ s.cfg.stackHi ≤ a) →
    (s.cfg.checkHighByte = false → a ≠ s.cfg.stackHi) → t.top.mem.read a = s.top.mem.read a

/-- R24, R113: what a step that raises a fault records. -/
def Obligations.FaultRecordSaysWhatFailed : Prop :=
  ∀ s t r, step s = .next t → t.fault = some r →
    r.faultIp = s.top.regs.ip
    ∧ (r.kind = .invalidOperand → r.faultAddr = 0) ∧ (r.kind = .unsupportedOpcode → r.faultAddr = 0)
    ∧ (r.kind = .segmentViolation → ¬ CanStore s.cfg r.faultAddr)
    ∧ (r.kind = .invalidAddress →
        (r.faultAddr = s.top.regs.ip.toNat ∧ (fetchIndex s < 0 ∨ (s.cfg.nInstr : Int) ≤ fetchIndex s))
        ∨ ∃ x : Word, r.faultAddr = x.toNat ∧ ¬ InText s.cfg x)

/-- R62, R113: an instruction raises InvalidOperand at stage 5 exactly when its operand kinds are refused, and then it has
no other effect. -/
def Obligations.InvalidOperandExactlyForRefusedKinds : Prop :=
  ∀ (i : Instr) (s : State), s.fault = none →
    (i.wellFormed = false → Raises i s s .invalidOperand 0)
    ∧ (∀ t r, exec i s = .next t → t.fault = some r → r.kind = .invalidOperand → i.wellFormed = false)

/-- R113: the instructions that never raise a given fault at stage 5. -/
def Obligations.FaultKindsEachInstructionCanRaise : Prop :=
  ∀ (i : Instr) (s t : State) r, s.fault = none → exec i s = .next t → t.fault = some r →
    r.kind ≠ .unsupportedOpcode
    ∧ match i with
      | .mov _ _ => r.kind ≠ .invalidAddress
      | .add _ _ => r.kind ≠ .invalidAddress
      | .sub _ _ => r.kind ≠ .invalidAddress
      | .cmp _ _ => r.kind = .invalidOperand
      | .jmp _ => r.kind = .invalidAddress
      | .jne _ => r.kind = .invalidAddress ∧ s.top.flags.zf = false
      | .je _ => r.kind = .invalidAddress ∧ s.top.flags.zf = true
      | .push _ => r.kind = .segmentViolation
      | .pop _ => r.kind ≠ .invalidAddress
      | .call _ => r.kind = .segmentViolation ∨ r.kind = .invalidAddress
      | .ret => r.kind = .invalidAddress
      | .mul _ => r.kind = .invalidOperand
      | .nop => False

/-- R130: what a faulting step leaves in `top`, besides the `ip` increment. -/
def Obligations.FaultingStepLeavesOnlyTheTabledEffects : Prop :=
  ∀ s t r, step s = .next t → t.fault = some r →
    ((¬ ∃ w i, FetchedWord s w ∧ decode w = .ok i) → t.top = (begun s).top)
    ∧ ∀ w i, FetchedWord s w → decode w = .ok i →
      match i with
      | .push _ => t.top = (lowered (begun s)).top
      | .call _ => (r.kind = .segmentViolation → t.top = (lowered (begun s)).top)
          ∧ (r.kind = .invalidAddress → t.top = (returnPushed (begun s)).top)
      | .mov _ _ => t.top = (begun s).top
      | .add _ _ => t.top = (begun s).top
      | .sub _ _ => t.top = (begun s).top
      | .cmp _ _ => t.top = (begun s).top
      | .jmp _ => t.top = (begun s).top
      | .jne _ => t.top = (begun s).top
      | .je _ => t.top = (begun s).top
      | .pop _ => t.top = (begun s).top
      | .ret => t.top = (begun s).top
      | .mul _ => t.top = (begun s).top
      | .nop => t.top = (begun s).top

/-- R27, R28: no instruction reads the entries below `top` or the fault latch: with others there, `top` comes out the same,
and so does the fault raised, if one is. -/
def Obligations.InstructionsIgnoreHistoryAndLatch : Prop :=
  ∀ (i : Instr) (s t : State) (b : List Snapshot) (f : Option FaultRecord), exec i s = .next t →
    ∃ u, exec i { s with below := b, fault := f } = .next u
      ∧ u.top = t.top ∧ u.cfg = t.cfg ∧ u.below = b ∧ ((t.fault = s.fault ∧ u.fault = f) ∨ u.fault = t.fault)

/-- R111: at the normal end of a run a further step faults with InvalidAddress at that address. -/
def Obligations.StepPastTheEndFaults : Prop :=
  ∀ s : State, s.atNormalEnd → s.cfg.maxHistory ≠ some s.depth →
    step s = .next { begun s with fault := some ⟨.invalidAddress, s.top.regs.ip, s.cfg.textBase + s.cfg.nInstr⟩ }

/-- Log entry 6, R104, R107: every step keeps the invariant of the machine's state. -/
def Obligations.StepKeepsTheInvariant : Prop := ∀ s t, s.Inv → step s = .next t → t.Inv

/-- Log entry 6, R104: `prev()` keeps the invariant. -/
def Obligations.PrevKeepsTheInvariant : Prop := ∀ s : State, s.Inv → s.prev.Inv

/-! ## Load and reset -/

/-- R31, R126: the machine after load. -/
def Obligations.LoadResetsRegistersFlagsHistoryAndLatch : Prop :=
  ∀ c : Config, (∀ r, (load c).top.regs.get r =
      if r = .sp ∨ r = .bp then c.stackBase else if r = .ip then c.entry else 0)
    ∧ (load c).top.flags = ⟨false, false, false⟩ ∧ (load c).depth = 1 ∧ (load c).fault = none ∧ (load c).cfg = c

/-- R32: the data image is at `DATA_BASE` and every other address reads 0. -/
def Obligations.LoadPlacesTheDataImage : Prop :=
  ∀ c : Config, (∀ (i : Nat) (b : Byte), c.dataImage[i]? = some b → (load c).top.mem.read (c.dataBase + i) = b)
    ∧ ∀ a, (a < c.dataBase ∨ c.dataBase + c.dataSize ≤ a) → (load c).top.mem.read a = 0

/-- The invariant holds after load of parameters that meet R7, and in `State.reset`, which is the load of the configuration
of log entry 2 (the model's choice). -/
def Obligations.LoadAndResetMeetTheInvariant : Prop :=
  (∀ c : Config, c.WellFormed → (load c).Inv) ∧ State.reset.Inv ∧ State.reset = load Config.atReset

/-- R127: after load of parameters that meet R7 the stack is usable. The second premise rules out the one corner of
log entry 11. -/
def Obligations.StackIsUsableAfterLoad : Prop :=
  ∀ (c : Config) src, c.WellFormed → (c.checkHighByte = true → (c.stackBase.toNat : Int) ≤ c.stackHi) →
    ∃ t, exec (.push src) (load c) = .next t ∧ t.fault = none ∧ t.top.regs.sp = c.stackBase - 2
      ∧ Stored (c.stackBase - 2).toNat ((lowered (load c)).readOp src) (load c) t

/-! ## Text (host side) -/

/-- R72, R73, R78: reading an operand's display text back gives the operand, but for the sign of a zero displacement, which
the text does not show. -/
def Obligations.OperandTextReadsBack : Prop :=
  ∀ (c : Config) (op : Operand), (∀ b, op ≠ .mem b true 0) → parseOperand c ⟨[], []⟩ (showOperand op) = .ok op

/-- R66, R76: every word of an assembled store decodes. -/
def Obligations.AssembledWordsDecode : Prop :=
  ∀ (c c' : Config) (ls : List Text), assemble c ls = .ok c' → ∀ w ∈ c'.store, ∃ i, decode w = .ok i

/-- R78: `instructions()` has one pair per store entry, at `TEXT_BASE + i`, with the text of its instruction. -/
def Obligations.ListingHasOneEntryPerInstruction : Prop :=
  ∀ s : State, s.instructions.length = s.cfg.nInstr
    ∧ ∀ (i : Nat) w, s.cfg.store[i]? = some w →
      s.instructions[i]? = some (s.cfg.textBase + i, (decode w).toOption.map showInstr)

/-- R75: `ENTRY` of an assembled source is `TEXT_BASE` plus the text offset of `_start`, or `TEXT_BASE` without one, and
`_start` is then a known label all the same: as an operand it is the Immediate `ENTRY`. A `_start` of the data section is no
entry point and keeps its own value (the model's choice, log entry 22). -/
def Obligations.EntryIsTheStartLabelOrTheTextBase : Prop :=
  ∀ (c c' : Config) (ls : List Text), assemble c ls = .ok c' → ∃ sc, Scan.start.lineList ls = .ok sc
    ∧ (∀ o, sc.labels.text.lookup startName = some o → c'.entry = trunc16 (c.textBase + o))
    ∧ (sc.labels.text.lookup startName = none → c'.entry = trunc16 c.textBase)
    ∧ (sc.labels.data.lookup startName = none →
      parseOperand c sc.labels.withEntry startName = .ok (.imm c'.entry))
    ∧ assembleLines c sc.labels.withEntry sc.lines = .ok c'.store
end

