-- ==== Sys2Proof/Laws/Decode.lean ====
section
/-! SUPPORT. What the fields of a packed slot and of a packed word read (30_encoding.md R58, R59). -/

namespace Sys2Proof

theorem RegId.id_lt (r : RegId) : r.id < 16 := by cases r <;> decide

theorem regOfId_id (r : RegId) : regOfId r.id = some r := by cases r <;> rfl

/-- The fields of a packed slot are what it was packed from. -/
theorem fields_packSlot {kind neg reg : Nat} (v : Word) (hk : kind < 4) (hn : neg < 2) (hr : reg < 16) :
    kindField (packSlot kind neg reg v) = kind ∧ negField (packSlot kind neg reg v) = neg
    ∧ regField (packSlot kind neg reg v) = reg ∧ rsv1Field (packSlot kind neg reg v) = 0
    ∧ valField (packSlot kind neg reg v) = v := by
  have := v.isLt
  simp only [kindField, negField, regField, rsv1Field, valField, field, packSlot, BitVec.toNat_ofNat]
  refine ⟨by omega, by omega, by omega, by omega, BitVec.eq_of_toNat_eq ?_⟩
  simp only [BitVec.toNat_ofNat]
  omega

/-- The slot of an operand decodes to the operand. -/
theorem decodeSlot_encodeSlot (op : Operand) : decodeSlot (encodeSlot op) = some op := by
  cases op with
  | reg r => cases r <;> decide
  | imm v =>
    obtain ⟨h1, h2, h3, h4, h5⟩ := fields_packSlot v (show 1 < 4 by decide) (show 0 < 2 by decide) (show 0 < 16 by decide)
    simp [decodeSlot, encodeSlot, *]
  | mem b neg d =>
    obtain ⟨h1, h2, h3, h4, h5⟩ :=
      fields_packSlot d (show 2 < 4 by decide) (show neg.toNat < 2 by cases neg <;> decide) b.id_lt
    cases neg <;> simp_all [decodeSlot, encodeSlot, regOfId_id]

/-- The fields of a packed word are what it was packed from. -/
theorem fields_packWord {opc nops : Nat} (s0 s1 : Slot) (ho : opc < 16) (hn : nops < 4) :
    field (packWord opc nops s0 s1) 63 60 = opc ∧ field (packWord opc nops s0 s1) 59 58 = nops
    ∧ field (packWord opc nops s0 s1) 57 48 = 0 ∧ field (packWord opc nops s0 s1) 47 24 = s0.toNat
    ∧ field (packWord opc nops s0 s1) 23 0 = s1.toNat := by
  have := s0.isLt
  have := s1.isLt
  simp only [field, packWord, BitVec.toNat_ofNat]
  refine ⟨by omega, by omega, by omega, by omega, by omega⟩

/-- A packed word with a known opcode and its operand count gets as far as its slots. -/
theorem decode_packWord {opc nops : Nat} (s0 s1 : Slot) (ho : opc < 13) (hn : nops = nopsOf opc) :
    decode (packWord opc nops s0 s1) = decodeOperands opc s0 s1 := by
  have hn4 : nops < 4 := by subst hn; unfold nopsOf; split <;> omega
  obtain ⟨h1, h2, h3, h4, h5⟩ := fields_packWord s0 s1 (show opc < 16 by omega) hn4
  simp only [decode, opcField, nopsField, rsv0Field, slot0Field, slot1Field, h1, h2, h3, h4, h5, BitVec.ofNat_toNat,
    BitVec.setWidth_eq]
  simp [show ¬ 13 ≤ opc by omega, hn]

end Sys2Proof
end

