-- ==== Sys2Proof/Laws/Memory.lean ====
section
/-! SUPPORT. Byte memory: what a read gives after a write, and that every operation keeps the canonical form. -/

namespace Sys2Proof.Machine

/-! ## One list of cells -/

/-- A write leaves every other key alone, in any list. -/
theorem readCells_writeCells_of_ne (l : List Host.Cell) {n m : Nat} (v : Byte) (h : m ≠ n) :
    readCells (writeCells l n v) m = readCells l m := by
  induction l with
  | nil => by_cases hv : v = unlistedByte <;> simp [writeCells, readCells, hv, Ne.symm h]
  | cons c rest ih =>
    obtain ⟨k, b⟩ := c
    simp only [writeCells]
    split
    · split <;> simp [readCells, Ne.symm h]
    · split
      · next hk => subst hk; split <;> simp [readCells, Ne.symm h]
      · simp [readCells, ih]

/-- Every key below all keys of a list reads as unlisted. -/
theorem readCells_of_lt (l : List Host.Cell) (n : Nat) (h : ∀ c ∈ l, n < c.1) : readCells l n = unlistedByte := by
  induction l with
  | nil => rfl
  | cons c rest ih =>
    have hc := h c (by simp)
    simp [readCells, Nat.ne_of_gt hc, ih fun d hd => h d (by simp [hd])]

theorem cellsWf_tail {c : Host.Cell} {l : List Host.Cell} (h : cellsWf (c :: l)) : cellsWf l :=
  ⟨(List.pairwise_cons.1 h.1).2, fun d hd => h.2 d (by simp [hd])⟩

/-- In a canonical list the key written reads as the byte written. -/
theorem readCells_writeCells_self (l : List Host.Cell) (n : Nat) (v : Byte) (h : cellsWf l) :
    readCells (writeCells l n v) n = v := by
  induction l with
  | nil => by_cases hv : v = unlistedByte <;> simp [writeCells, readCells, hv]
  | cons c rest ih =>
    obtain ⟨k, b⟩ := c
    have hlt := (List.pairwise_cons.1 h.1).1
    simp only [writeCells]
    split
    · next hk =>
      split
      · next hv =>
        subst hv
        exact readCells_of_lt _ n (by rintro d (_ | ⟨_, hd⟩) <;> [exact hk; exact hk.trans (hlt d hd)])
      · simp [readCells]
    · split
      · next hk =>
        subst hk
        split
        · next hv => subst hv; exact readCells_of_lt rest n hlt
        · simp [readCells]
      · next hk => simp [readCells, Ne.symm hk, ih (cellsWf_tail h)]

/-- The keys of a written list are the old keys and the key written. -/
theorem mem_writeCells {l : List Host.Cell} {n : Nat} {v : Byte} {c : Host.Cell} (h : c ∈ writeCells l n v) :
    c ∈ l ∨ (c = (n, v) ∧ v ≠ unlistedByte) := by
  induction l with
  | nil => by_cases hv : v = unlistedByte <;> simp_all [writeCells]
  | cons d rest ih =>
    obtain ⟨k, b⟩ := d
    simp only [writeCells] at h
    split at h
    · split at h
      · exact .inl h
      · rcases List.mem_cons.1 h with rfl | h <;> simp_all
    · split at h
      · split at h
        · exact .inl (by simp [h])
        · rcases List.mem_cons.1 h with rfl | h <;> simp_all
      · rcases List.mem_cons.1 h with rfl | h
        · simp
        · rcases ih h with h | h <;> simp [h]

/-- A write keeps the canonical form of a list. -/
theorem cellsWf_writeCells (l : List Host.Cell) (n : Nat) (v : Byte) (h : cellsWf l) : cellsWf (writeCells l n v) := by
  refine ⟨?_, fun c hc => ?_⟩
  · induction l with
    | nil => by_cases hv : v = unlistedByte <;> simp [writeCells, hv]
    | cons c rest ih =>
      obtain ⟨k, b⟩ := c
      obtain ⟨hlt, hrest⟩ := List.pairwise_cons.1 h.1
      simp only [writeCells]
      split
      · next hk =>
        split
        · exact h.1
        · exact List.pairwise_cons.2 ⟨by rintro d (_ | ⟨_, hd⟩) <;> [exact hk; exact hk.trans (hlt d hd)], h.1⟩
      · split
        · next hk =>
          subst hk
          split
          · exact hrest
          · exact List.pairwise_cons.2 ⟨hlt, hrest⟩
        · next hk hk' =>
          refine List.pairwise_cons.2 ⟨fun d hd => ?_, ih (cellsWf_tail h)⟩
          rcases mem_writeCells hd with hd | ⟨rfl, _⟩
          · exact hlt d hd
          · show k < n; omega
  · rcases mem_writeCells hc with hc | ⟨rfl, hv⟩
    · exact h.2 c hc
    · exact hv

/-! ## Memory -/

/-- A byte written reads back in a canonical memory. -/
theorem Memory.read_write_self (m : Memory) (a : Int) (v : Byte) (h : m.wf) : (m.write a v).read a = v := by
  cases a with
  | ofNat n => exact readCells_writeCells_self _ n v h.1
  | negSucc n => exact readCells_writeCells_self _ n v h.2

/-- A write leaves every other address alone, in any memory. -/
theorem Memory.read_write_of_ne (m : Memory) {a b : Int} (v : Byte) (h : b ≠ a) : (m.write a v).read b = m.read b := by
  cases a <;> cases b <;>
    first
      | rfl
      | exact readCells_writeCells_of_ne _ v fun e => h (by rw [e])

/-- A write keeps the canonical form. -/
theorem Memory.wf_write (m : Memory) (a : Int) (v : Byte) (h : m.wf) : (m.write a v).wf := by
  cases a with
  | ofNat n => exact ⟨cellsWf_writeCells _ n v h.1, h.2⟩
  | negSucc n => exact ⟨h.1, cellsWf_writeCells _ n v h.2⟩

/-- A word write keeps the canonical form. -/
theorem Memory.wf_writeWord (m : Memory) (a : Int) (v : Word) (h : m.wf) : (m.writeWord a v).wf :=
  Memory.wf_write _ _ _ (Memory.wf_write _ _ _ h)

/-- Placing bytes keeps the canonical form. -/
theorem Memory.wf_place (m : Memory) (a : Int) (l : List Byte) (h : m.wf) : (m.place a l).wf := by
  induction l generalizing m a with
  | nil => exact h
  | cons b rest ih => exact ih _ _ (m.wf_write a b h)

theorem Memory.wf_empty : Memory.empty.wf := by decide

/-- The low byte of a word written is at its address. -/
theorem Memory.read_writeWord_low (m : Memory) (a : Int) (v : Word) (h : m.wf) :
    (m.writeWord a v).read a = lowByte v := by
  rw [Memory.writeWord, Memory.read_write_of_ne _ _ (by omega), Memory.read_write_self _ _ _ h]

/-- The high byte of a word written is at the next address. -/
theorem Memory.read_writeWord_high (m : Memory) (a : Int) (v : Word) (h : m.wf) :
    (m.writeWord a v).read (a + 1) = highByte v :=
  Memory.read_write_self _ _ _ (m.wf_write a _ h)

/-- A word write leaves every byte outside its two addresses alone, in any memory. -/
theorem Memory.read_writeWord_of_ne (m : Memory) {a b : Int} (v : Word) (h : b ≠ a) (h' : b ≠ a + 1) :
    (m.writeWord a v).read b = m.read b := by
  rw [Memory.writeWord, Memory.read_write_of_ne _ _ h', Memory.read_write_of_ne _ _ h]

/-- A word is the bytes it was split into. -/
theorem wordOfBytes_lowByte_highByte (v : Word) : wordOfBytes (lowByte v) (highByte v) = v := by
  apply BitVec.eq_of_toNat_eq
  simp only [wordOfBytes, lowByte, highByte, BitVec.toNat_ofNat]
  omega

/-- A word written reads back in a canonical memory. -/
theorem Memory.readWord_writeWord (m : Memory) (a : Int) (v : Word) (h : m.wf) : (m.writeWord a v).readWord a = v := by
  rw [Memory.readWord, m.read_writeWord_low a v h, m.read_writeWord_high a v h, wordOfBytes_lowByte_highByte]

/-- The value of a word read (R40). -/
theorem Memory.toNat_readWord (m : Memory) (a : Int) :
    (m.readWord a).toNat = (m.read a).toNat + 0x100 * (m.read (a + 1)).toNat := by
  have h := (m.read a).isLt
  have h' := (m.read (a + 1)).isLt
  simp only [Memory.readWord, wordOfBytes, BitVec.toNat_ofNat]
  omega

end Sys2Proof.Machine
end

