-- ==== Sys2Proof/Laws/State.lean ====
section
/-! SUPPORT. One lemma per field per update of the state, true by rfl. -/

namespace Sys2Proof.Machine

variable (s : State)

@[simp] theorem State.setReg_cfg (r : RegId) (v : Word) : (s.setReg r v).cfg = s.cfg := rfl
@[simp] theorem State.setReg_below (r : RegId) (v : Word) : (s.setReg r v).below = s.below := rfl
@[simp] theorem State.setReg_fault (r : RegId) (v : Word) : (s.setReg r v).fault = s.fault := rfl
@[simp] theorem State.setReg_regs (r : RegId) (v : Word) : (s.setReg r v).top.regs = s.top.regs.set r v := rfl
@[simp] theorem State.setReg_flags (r : RegId) (v : Word) : (s.setReg r v).top.flags = s.top.flags := rfl
@[simp] theorem State.setReg_mem (r : RegId) (v : Word) : (s.setReg r v).top.mem = s.top.mem := rfl

@[simp] theorem State.setZf_cfg (b : Bool) : (s.setZf b).cfg = s.cfg := rfl
@[simp] theorem State.setZf_below (b : Bool) : (s.setZf b).below = s.below := rfl
@[simp] theorem State.setZf_fault (b : Bool) : (s.setZf b).fault = s.fault := rfl
@[simp] theorem State.setZf_regs (b : Bool) : (s.setZf b).top.regs = s.top.regs := rfl
@[simp] theorem State.setZf_flags (b : Bool) : (s.setZf b).top.flags = { s.top.flags with zf := b } := rfl
@[simp] theorem State.setZf_mem (b : Bool) : (s.setZf b).top.mem = s.top.mem := rfl

@[simp] theorem State.setCf_cfg (b : Bool) : (s.setCf b).cfg = s.cfg := rfl
@[simp] theorem State.setCf_below (b : Bool) : (s.setCf b).below = s.below := rfl
@[simp] theorem State.setCf_fault (b : Bool) : (s.setCf b).fault = s.fault := rfl
@[simp] theorem State.setCf_regs (b : Bool) : (s.setCf b).top.regs = s.top.regs := rfl
@[simp] theorem State.setCf_flags (b : Bool) : (s.setCf b).top.flags = { s.top.flags with cf := b } := rfl
@[simp] theorem State.setCf_mem (b : Bool) : (s.setCf b).top.mem = s.top.mem := rfl

@[simp] theorem State.setOf_cfg (b : Bool) : (s.setOf b).cfg = s.cfg := rfl
@[simp] theorem State.setOf_below (b : Bool) : (s.setOf b).below = s.below := rfl
@[simp] theorem State.setOf_fault (b : Bool) : (s.setOf b).fault = s.fault := rfl
@[simp] theorem State.setOf_regs (b : Bool) : (s.setOf b).top.regs = s.top.regs := rfl
@[simp] theorem State.setOf_flags (b : Bool) : (s.setOf b).top.flags = { s.top.flags with of := b } := rfl
@[simp] theorem State.setOf_mem (b : Bool) : (s.setOf b).top.mem = s.top.mem := rfl

@[simp] theorem State.storeWord_cfg (a : Int) (v : Word) : (s.storeWord a v).cfg = s.cfg := rfl
@[simp] theorem State.storeWord_below (a : Int) (v : Word) : (s.storeWord a v).below = s.below := rfl
@[simp] theorem State.storeWord_fault (a : Int) (v : Word) : (s.storeWord a v).fault = s.fault := rfl
@[simp] theorem State.storeWord_regs (a : Int) (v : Word) : (s.storeWord a v).top.regs = s.top.regs := rfl
@[simp] theorem State.storeWord_flags (a : Int) (v : Word) : (s.storeWord a v).top.flags = s.top.flags := rfl
@[simp] theorem State.storeWord_mem (a : Int) (v : Word) : (s.storeWord a v).top.mem = s.top.mem.writeWord a v := rfl

@[simp] theorem State.raise_cfg (k : FaultKind) (f : Int) : (s.raise k f).cfg = s.cfg := rfl
@[simp] theorem State.raise_below (k : FaultKind) (f : Int) : (s.raise k f).below = s.below := rfl
@[simp] theorem State.raise_fault (k : FaultKind) (f : Int) : (s.raise k f).fault = some ⟨k, s.fetchAddress, f⟩ := rfl
@[simp] theorem State.raise_regs (k : FaultKind) (f : Int) : (s.raise k f).top.regs = s.top.regs := rfl
@[simp] theorem State.raise_flags (k : FaultKind) (f : Int) : (s.raise k f).top.flags = s.top.flags := rfl
@[simp] theorem State.raise_mem (k : FaultKind) (f : Int) : (s.raise k f).top.mem = s.top.mem := rfl

@[simp] theorem State.pushSnapshot_cfg : (s.pushSnapshot).cfg = s.cfg := rfl
@[simp] theorem State.pushSnapshot_below : (s.pushSnapshot).below = s.top :: s.below := rfl
@[simp] theorem State.pushSnapshot_fault : (s.pushSnapshot).fault = s.fault := rfl
@[simp] theorem State.pushSnapshot_regs : (s.pushSnapshot).top.regs = s.top.regs := rfl
@[simp] theorem State.pushSnapshot_flags : (s.pushSnapshot).top.flags = s.top.flags := rfl
@[simp] theorem State.pushSnapshot_mem : (s.pushSnapshot).top.mem = s.top.mem := rfl

/-! ## The register file -/

/-- Reading back the register written (R14). -/
@[simp] theorem Registers.get_set_self (g : Registers) (r : RegId) (v : Word) : (g.set r v).get r = v := by
  cases r <;> rfl

/-- Writing one register leaves the others (R13). -/
theorem Registers.get_set_of_ne (g : Registers) {r r' : RegId} (v : Word) (h : r' ≠ r) : (g.set r v).get r' = g.get r' := by
  cases r <;> cases r' <;> first | rfl | exact absurd rfl h

theorem Registers.get_set (g : Registers) (r r' : RegId) (v : Word) :
    (g.set r v).get r' = if r' = r then v else g.get r' := by
  split
  · next h => subst h; exact g.get_set_self r' v
  · next h => exact g.get_set_of_ne v h

@[simp] theorem Registers.set_ip (g : Registers) (v : Word) : g.set .ip v = { g with ip := v } := rfl

theorem State.reg_eq (r : RegId) : s.reg r = s.top.regs.get r := rfl

theorem State.reg_setReg (r r' : RegId) (v : Word) : (s.setReg r v).reg r' = if r' = r then v else s.reg r' :=
  s.top.regs.get_set r r' v

@[simp] theorem State.reg_setReg_self (r : RegId) (v : Word) : (s.setReg r v).reg r = v := s.top.regs.get_set_self r v

@[simp] theorem State.reg_setZf (b : Bool) (r : RegId) : (s.setZf b).reg r = s.reg r := rfl
@[simp] theorem State.reg_setCf (b : Bool) (r : RegId) : (s.setCf b).reg r = s.reg r := rfl
@[simp] theorem State.reg_setOf (b : Bool) (r : RegId) : (s.setOf b).reg r = s.reg r := rfl
@[simp] theorem State.reg_storeWord (a : Int) (v : Word) (r : RegId) : (s.storeWord a v).reg r = s.reg r := rfl
@[simp] theorem State.reg_raise (k : FaultKind) (f : Int) (r : RegId) : (s.raise k f).reg r = s.reg r := rfl

/-! ## The reset state -/

@[simp] theorem load_cfg (c : Config) : (load c).cfg = c := rfl
@[simp] theorem load_top (c : Config) : (load c).top = Snapshot.initial c := rfl
@[simp] theorem load_below (c : Config) : (load c).below = [] := rfl
@[simp] theorem load_fault (c : Config) : (load c).fault = none := rfl

end Sys2Proof.Machine
end

