-- ==== Sys2Proof/Laws/Ops.lean ====
section
/-! SUPPORT. What each shared operation can do, said once. -/

namespace Sys2Proof.Machine

/-! ## Arithmetic -/

theorem toNat_trunc16 (v : Int) : ((trunc16 v).toNat : Int) = v % 0x10000 := by
  simp only [trunc16, BitVec.toNat_ofInt]
  omega

/-- `add` wraps within 16 bits (R87). -/
@[simp] theorem add16_eq (d s : Word) : add16 d s = d + s := by
  apply BitVec.eq_of_toNat_eq
  have h := toNat_trunc16 ((d.toNat : Int) + s.toNat)
  simp only [add16, BitVec.toNat_add]
  omega

/-- `sub` wraps within 16 bits (R87). -/
@[simp] theorem sub16_eq (d s : Word) : sub16 d s = d - s := by
  apply BitVec.eq_of_toNat_eq
  have h := toNat_trunc16 ((d.toNat : Int) - s.toNat)
  have hd := d.isLt
  have hs := s.isLt
  simp only [sub16, BitVec.toNat_sub]
  omega

/-- The zero flag of a difference says the operands are equal (R87). -/
theorem zeroFlag_sub16 (d s : Word) : zeroFlag (sub16 d s) = decide (d = s) := by
  have h : d - s = 0#16 ↔ d = s := by bv_omega
  by_cases hds : d = s <;> simp [zeroFlag, h, hds]

/-- The fetch address is `ip - 1` (log entry 5). -/
theorem State.fetchAddress_eq (s : State) : s.fetchAddress = s.top.regs.ip - 1 := sub16_eq _ _

/-! ## Runs -/

@[simp] theorem Run.outcome_ok (s : State) : Run.outcome (.ok s) = .next s := rfl
@[simp] theorem Run.outcome_error (s : State) : Run.outcome (.error s) = .next s := rfl

/-- A handler always answers a next state. -/
theorem Run.outcome_next (x : Run) : ∃ t, x.outcome = .next t := by
  cases x <;> exact ⟨_, rfl⟩

/-! ## Checked stores and jumps -/

theorem writable_iff {c : Config} {a : Int} : writable c a = true ↔ c.stackLo ≤ a ∧ a < c.stackHi := by
  simp [writable]

theorem writableWord_iff {c : Config} {a : Int} : writableWord c a = true ↔
    c.stackLo ≤ a ∧ a < c.stackHi ∧ (c.checkHighByte = true → c.stackLo ≤ a + 1 ∧ a + 1 < c.stackHi) := by
  cases h : c.checkHighByte <;> simp [writableWord, writable, h, and_assoc]

theorem State.memWrite_ok (s : State) {a : Int} (v : Word) (h : writableWord s.cfg a = true) :
    s.memWrite a v = .ok (s.storeWord a v) := by
  simp [State.memWrite, h]

theorem State.memWrite_error (s : State) {a : Int} (v : Word) (h : writableWord s.cfg a = false) :
    s.memWrite a v = .error (s.raise .segmentViolation a) := by
  simp [State.memWrite, h]

theorem inText_iff {c : Config} {t : Word} :
    inText c t = true ↔ c.textBase ≤ (t.toNat : Int) ∧ (t.toNat : Int) < c.textLimit := by
  simp [inText]

theorem State.jump_ok (s : State) {t : Word} (h : inText s.cfg t = true) : s.jump t = .ok (s.setReg .ip t) := by
  simp [State.jump, h]

theorem State.jump_error (s : State) {t : Word} (h : inText s.cfg t = false) :
    s.jump t = .error (s.raise .invalidAddress t.toNat) := by
  simp [State.jump, h]

/-! ## Operands -/

@[simp] theorem State.readOp_reg (s : State) (r : RegId) : s.readOp (.reg r) = s.reg r := rfl
@[simp] theorem State.readOp_imm (s : State) (v : Word) : s.readOp (.imm v) = v := rfl
@[simp] theorem State.readOp_mem (s : State) (b : RegId) (neg : Bool) (d : Word) :
    s.readOp (.mem b neg d) = s.memRead (s.effAddr b neg d) := rfl

@[simp] theorem State.writeOp_reg (s : State) (r : RegId) (v : Word) : s.writeOp (.reg r) v = .ok (s.setReg r v) := rfl
@[simp] theorem State.writeOp_imm (s : State) (w v : Word) :
    s.writeOp (.imm w) v = .error (s.raise .invalidOperand 0) := rfl
@[simp] theorem State.writeOp_mem (s : State) (b : RegId) (neg : Bool) (d v : Word) :
    s.writeOp (.mem b neg d) v = s.memWrite (s.effAddr b neg d) v := rfl

/-- The pair check passes exactly on the pairs R62 accepts. -/
theorem State.checkPair_ok (s : State) {dst src : Operand} (h : dst.pairOk src = true) :
    s.checkPair dst src false = .ok s := by
  cases dst <;> cases src <;> simp_all [State.checkPair, Operand.pairOk, Operand.isImm, Operand.isMem]

/-- The pair check raises InvalidOperand on every other pair (R83). -/
theorem State.checkPair_error (s : State) {dst src : Operand} (h : dst.pairOk src = false) :
    s.checkPair dst src false = .error (s.raise .invalidOperand 0) := by
  cases dst <;> cases src <;> simp_all [State.checkPair, Operand.pairOk, Operand.isImm, Operand.isMem]

/-- A forced store skips the memory-to-memory check (R83). -/
theorem State.checkPair_forced (s : State) (b : RegId) (neg : Bool) (d : Word) (src : Operand) :
    s.checkPair (.mem b neg d) src true = .ok s := by
  simp [State.checkPair, Operand.isImm]

/-! ## The stack pointer -/

@[simp] theorem State.lowerSp_cfg (s : State) : s.lowerSp.cfg = s.cfg := by unfold State.lowerSp; split <;> rfl
@[simp] theorem State.lowerSp_below (s : State) : s.lowerSp.below = s.below := by unfold State.lowerSp; split <;> rfl
@[simp] theorem State.lowerSp_fault (s : State) : s.lowerSp.fault = s.fault := by unfold State.lowerSp; split <;> rfl
@[simp] theorem State.lowerSp_mem (s : State) : s.lowerSp.top.mem = s.top.mem := by unfold State.lowerSp; split <;> rfl
@[simp] theorem State.lowerSp_regs (s : State) :
    s.lowerSp.top.regs = { s.top.regs with sp := s.top.regs.sp - 2 } := by
  unfold State.lowerSp; split <;> simp [Registers.set, State.reg, Registers.get]
theorem State.lowerSp_flags (s : State) : s.lowerSp.top.flags =
    if s.cfg.pushSetsZf then { s.top.flags with zf := zeroFlag (s.top.regs.sp - 2) } else s.top.flags := by
  unfold State.lowerSp; split <;> simp [State.reg, Registers.get]

/-! ## prev -/

@[simp] theorem State.prev_nil (s : State) (h : s.below = []) : s.prev = s := by simp [State.prev, h]

theorem State.prev_cons (s : State) {e : Snapshot} {rest : List Snapshot} (h : s.below = e :: rest) :
    s.prev = { s with top := e, below := rest, fault := none } := by simp [State.prev, h]

/-! ## The stages before dispatch -/

/-- Stages 1 and 2 (R79). -/
theorem State.beginStep_eq (s : State) : s.beginStep =
    { s with top := { s.top with regs := { s.top.regs with ip := s.top.regs.ip + 1 } }, below := s.top :: s.below } := by
  rw [State.beginStep, add16_eq]; rfl

@[simp] theorem State.beginStep_cfg (s : State) : s.beginStep.cfg = s.cfg := rfl
@[simp] theorem State.beginStep_below (s : State) : s.beginStep.below = s.top :: s.below := rfl
@[simp] theorem State.beginStep_fault (s : State) : s.beginStep.fault = s.fault := rfl
@[simp] theorem State.beginStep_mem (s : State) : s.beginStep.top.mem = s.top.mem := rfl
@[simp] theorem State.beginStep_flags (s : State) : s.beginStep.top.flags = s.top.flags := rfl

/-- During the step the fetch address is the old `ip` (R17, R24). -/
@[simp] theorem State.beginStep_fetchAddress (s : State) : s.beginStep.fetchAddress = s.top.regs.ip := by
  rw [State.fetchAddress_eq, State.beginStep_eq]
  show s.top.regs.ip + 1 - 1 = s.top.regs.ip
  bv_omega

theorem historyFull_iff {s : State} : s.historyFull = true ↔ s.cfg.maxHistory = some s.depth := by
  unfold State.historyFull
  split
  · next h => simp [h]
  · next m h => rw [h, beq_iff_eq, Option.some.injEq]; exact eq_comm

/-- A fetch succeeds exactly on an index within the store (R79). -/
theorem fetchWord_eq_none_iff {c : Config} {a : Word} : fetchWord c a = none ↔
    (a.toNat : Int) - c.textBase < 0 ∨ (c.nInstr : Int) ≤ (a.toNat : Int) - c.textBase := by
  simp only [fetchWord, Config.nInstr]
  split
  · next h => simp [h]
  · next h => rw [List.getElem?_eq_none_iff]; omega

end Sys2Proof.Machine
end

