-- ==== Sys2Proof/Laws/Exec.lean ====
section
/-! SUPPORT. What a handler can do (stage 5), and from it what a step can do. -/

namespace Sys2Proof.Machine

/-- Everything stage 5 can do, for any instruction: it touches neither the configuration nor the history; it stores at
most one word, at a writable address; it raises at most one fault, which records the fetch address. -/
structure StageFive (s t : State) : Prop where
  cfg : t.cfg = s.cfg
  below : t.below = s.below
  mem : t.top.mem = s.top.mem ∨ ∃ a v, writableWord s.cfg a = true ∧ t.top.mem = s.top.mem.writeWord a v
  fault : t.fault = s.fault ∨ ∃ k f, t.fault = some ⟨k, s.fetchAddress, f⟩

theorem StageFive.refl (s : State) : StageFive s s := ⟨rfl, rfl, .inl rfl, .inl rfl⟩

/-- Raising a fault first. -/
theorem StageFive.raise (s : State) (k : FaultKind) (f : Int) : StageFive s (s.raise k f) :=
  ⟨rfl, rfl, .inl rfl, .inr ⟨k, f, rfl⟩⟩

/-- Writes of registers and flags in front of a stage 5 are invisible to it, if they leave `ip` alone. -/
theorem StageFive.of_regs {s u t : State} (hc : u.cfg = s.cfg) (hb : u.below = s.below) (hm : u.top.mem = s.top.mem)
    (hf : u.fault = s.fault) (hi : u.top.regs.ip = s.top.regs.ip) (h : StageFive u t) : StageFive s t := by
  obtain ⟨h1, h2, h3, h4⟩ := h
  have ha : u.fetchAddress = s.fetchAddress := by rw [u.fetchAddress_eq, s.fetchAddress_eq, hi]
  exact ⟨h1.trans hc, h2.trans hb, by rw [← hm, ← hc]; exact h3, by rw [← ha, ← hf]; exact h4⟩

/-- Writes of registers and flags after a stage 5 are invisible to it. -/
theorem StageFive.then_regs {s t u : State} (h : StageFive s t) (hc : u.cfg = t.cfg) (hb : u.below = t.below)
    (hm : u.top.mem = t.top.mem) (hf : u.fault = t.fault) : StageFive s u :=
  ⟨hc.trans h.cfg, hb.trans h.below, by rw [hm]; exact h.mem, by rw [hf]; exact h.fault⟩

/-- The state a run ends in. -/
def Run.state : Run → State
  | .ok s => s
  | .error s => s

theorem Run.outcome_eq (x : Run) : x.outcome = .next x.state := by cases x <;> rfl

theorem stageFive_memWrite (s : State) (a : Int) (v : Word) : StageFive s (s.memWrite a v).state := by
  unfold State.memWrite
  split
  · next h => exact ⟨rfl, rfl, .inr ⟨a, v, h, rfl⟩, .inl rfl⟩
  · exact .raise s _ _

theorem stageFive_writeOp (s : State) (op : Operand) (v : Word) : StageFive s (s.writeOp op v).state := by
  cases op with
  | reg r => exact ⟨rfl, rfl, .inl rfl, .inl rfl⟩
  | imm w => exact .raise s _ _
  | mem b neg d => exact stageFive_memWrite s _ v

theorem stageFive_jump (s : State) (t : Word) : StageFive s (s.jump t).state := by
  unfold State.jump
  split
  · exact ⟨rfl, rfl, .inl rfl, .inl rfl⟩
  · exact .raise s _ _

theorem stageFive_lowerSp {s t : State} (h : StageFive s.lowerSp t) : StageFive s t :=
  .of_regs (by simp) (by simp) (by simp) (by simp) (by simp) h

/-- A two-operand handler: the pair check, then the rest from the same state. -/
theorem stageFive_checkPair (s : State) (dst src : Operand) (k : State → Run) (h : StageFive s (k s).state) :
    StageFive s (Run.state (s.checkPair dst src false >>= k)) := by
  cases hp : dst.pairOk src
  · rw [s.checkPair_error hp]; exact .raise s _ _
  · rw [s.checkPair_ok hp]; exact h

/-- A last statement that writes only registers and flags. -/
theorem stageFive_bind_regs {s : State} {x : Run} (f : State → State) (h : StageFive s x.state)
    (hf : ∀ u, (f u).cfg = u.cfg ∧ (f u).below = u.below ∧ (f u).top.mem = u.top.mem ∧ (f u).fault = u.fault) :
    StageFive s (Run.state (x >>= fun u => .ok (f u))) := by
  cases x with
  | error u => exact h
  | ok u => exact h.then_regs (hf u).1 (hf u).2.1 (hf u).2.2.1 (hf u).2.2.2

/-- What `exec` can do: it always answers a next state, and that state is one stage 5 can reach. -/
theorem exec_stageFive (i : Instr) (s : State) : ∃ t, exec i s = .next t ∧ StageFive s t := by
  cases i with
  | mov dst src =>
    exact ⟨_, Run.outcome_eq _, stageFive_checkPair s dst src _ (stageFive_writeOp s dst _)⟩
  | add dst src =>
    exact ⟨_, Run.outcome_eq _, stageFive_checkPair s dst src _ (stageFive_writeOp s dst _)⟩
  | sub dst src =>
    exact ⟨_, Run.outcome_eq _, stageFive_checkPair s dst src _
      (stageFive_bind_regs _ (stageFive_writeOp s dst _) fun _ => ⟨rfl, rfl, rfl, rfl⟩)⟩
  | cmp dst src =>
    exact ⟨_, Run.outcome_eq _, stageFive_checkPair s dst src _ ⟨rfl, rfl, .inl rfl, .inl rfl⟩⟩
  | jmp target => exact ⟨_, Run.outcome_eq _, stageFive_jump s _⟩
  | jne target =>
    refine ⟨_, Run.outcome_eq _, ?_⟩
    split
    · exact .refl s
    · exact stageFive_jump s _
  | je target =>
    refine ⟨_, Run.outcome_eq _, ?_⟩
    split
    · exact stageFive_jump s _
    · exact .refl s
  | push src => exact ⟨_, Run.outcome_eq _, stageFive_lowerSp (stageFive_memWrite _ _ _)⟩
  | pop dst =>
    refine ⟨_, Run.outcome_eq _, ?_⟩
    split
    · exact .raise s _ _
    · exact stageFive_bind_regs _ (stageFive_writeOp s dst _) fun _ => ⟨rfl, rfl, rfl, rfl⟩
  | call target =>
    refine ⟨_, Run.outcome_eq _, stageFive_lowerSp ?_⟩
    cases h : writableWord s.lowerSp.cfg (s.lowerSp.reg .sp).toNat
    · rw [State.memWrite_error _ _ h]; exact .raise _ _ _
    · rw [State.memWrite_ok _ _ h]
      show StageFive _ (State.jump _ _).state
      unfold State.jump
      split
      · exact ⟨rfl, rfl, .inr ⟨_, _, h, rfl⟩, .inl rfl⟩
      · exact ⟨rfl, rfl, .inr ⟨_, _, h, rfl⟩, .inr ⟨_, _, rfl⟩⟩
  | ret =>
    exact ⟨_, Run.outcome_eq _, stageFive_bind_regs _ (stageFive_jump s _) fun _ => ⟨rfl, rfl, rfl, rfl⟩⟩
  | mul src =>
    refine ⟨_, Run.outcome_eq _, ?_⟩
    split
    · exact ⟨rfl, rfl, .inl rfl, .inl rfl⟩
    · exact .raise s _ _
  | nop => exact ⟨s, rfl, .refl s⟩

/-- What `exec` did, when it answered `t`. -/
theorem stageFive_of_exec {i : Instr} {s t : State} (h : exec i s = .next t) : StageFive s t := by
  obtain ⟨u, hu, hs⟩ := exec_stageFive i s
  rw [h] at hu
  exact (Host.Outcome.next.inj hu) ▸ hs

/-- What a step can do: it needs a clear latch and room in the history, and what it does after stages 1 and 2 is what
stage 5 can do. -/
theorem step_cases {s t : State} (h : step s = .next t) :
    s.fault = none ∧ s.historyFull = false ∧ StageFive s.beginStep t := by
  unfold step at h
  split at h
  · cases h
  · next hf =>
    split at h
    · cases h
    · next hh =>
      refine ⟨hf, by simpa using hh, ?_⟩
      split at h
      · cases h; exact .raise _ _ _
      · exact stageFive_of_exec h

end Sys2Proof.Machine
end

