-- ==== Sys2Proof/Laws/PerInstr.lean ====
section
/-! SUPPORT. One lemma per constructor of `Instr`: the fields of its word (30_encoding.md R58, R60). -/

namespace Sys2Proof.Laws.EncodeFields

/-- The word of an instruction has `OPC`, `NOPS`, a zero `RSV0`, and slots. -/
def Fields (w : InstrWord) (opc nops : Nat) (s0 s1 : Slot) : Prop :=
  field w 63 60 = opc ∧ field w 59 58 = nops ∧ field w 57 48 = 0 ∧ field w 47 24 = s0.toNat ∧ field w 23 0 = s1.toNat

/-- The fields the table of R60 gives the word of each instruction. -/
def Statement : Instr → Prop
  | .mov dst src => Fields (encode (.mov dst src)) 0 2 (encodeSlot dst) (encodeSlot src)
  | .add dst src => Fields (encode (.add dst src)) 1 2 (encodeSlot dst) (encodeSlot src)
  | .sub dst src => Fields (encode (.sub dst src)) 2 2 (encodeSlot dst) (encodeSlot src)
  | .cmp dst src => Fields (encode (.cmp dst src)) 3 2 (encodeSlot dst) (encodeSlot src)
  | .jmp target => Fields (encode (.jmp target)) 4 1 (encodeSlot target) 0
  | .jne target => Fields (encode (.jne target)) 5 1 (encodeSlot target) 0
  | .je target => Fields (encode (.je target)) 6 1 (encodeSlot target) 0
  | .push src => Fields (encode (.push src)) 7 1 (encodeSlot src) 0
  | .pop dst => Fields (encode (.pop dst)) 8 1 (encodeSlot dst) 0
  | .call target => Fields (encode (.call target)) 9 1 (encodeSlot target) 0
  | .ret => Fields (encode .ret) 10 0 0 0
  | .mul src => Fields (encode (.mul src)) 11 1 (encodeSlot src) 0
  | .nop => Fields (encode .nop) 12 0 0 0

theorem mov (dst src : Operand) : Statement (.mov dst src) := fields_packWord _ _ (by decide) (by decide)
theorem add (dst src : Operand) : Statement (.add dst src) := fields_packWord _ _ (by decide) (by decide)
theorem sub (dst src : Operand) : Statement (.sub dst src) := fields_packWord _ _ (by decide) (by decide)
theorem cmp (dst src : Operand) : Statement (.cmp dst src) := fields_packWord _ _ (by decide) (by decide)
theorem jmp (target : Operand) : Statement (.jmp target) := fields_packWord _ _ (by decide) (by decide)
theorem jne (target : Operand) : Statement (.jne target) := fields_packWord _ _ (by decide) (by decide)
theorem je (target : Operand) : Statement (.je target) := fields_packWord _ _ (by decide) (by decide)
theorem push (src : Operand) : Statement (.push src) := fields_packWord _ _ (by decide) (by decide)
theorem pop (dst : Operand) : Statement (.pop dst) := fields_packWord _ _ (by decide) (by decide)
theorem call (target : Operand) : Statement (.call target) := fields_packWord _ _ (by decide) (by decide)
theorem ret : Statement .ret := fields_packWord _ _ (by decide) (by decide)
theorem mul (src : Operand) : Statement (.mul src) := fields_packWord _ _ (by decide) (by decide)
theorem nop : Statement .nop := fields_packWord _ _ (by decide) (by decide)

end Sys2Proof.Laws.EncodeFields
end

