-- ==== Sys2Proof/Laws/Step.lean ====
section
/-! SUPPORT. What a step does once the latch is clear and the history has room, and that `withFetchWord` puts a word where
the next step fetches it (log entry 7). -/

namespace Sys2Proof.Machine

/-- A step that neither the latch nor the history stops: fetch, decode, dispatch (R79). -/
theorem step_running {s : State} (hf : s.fault = none) (hh : s.historyFull = false) :
    step s = match fetchDecode s.cfg s.top.regs.ip with
      | .error (k, f) => .next (s.beginStep.raise k f)
      | .ok i => exec i s.beginStep := by
  unfold step
  rw [hf, hh]
  rfl

/-- A word placed at an index is read back there. -/
theorem getElem?_placeWord (l : List InstrWord) (i : Nat) (w : InstrWord) : (placeWord l i w)[i]? = some w := by
  unfold placeWord
  rw [List.getElem?_set_self]
  simp only [List.length_append, List.length_replicate]
  omega

/-- The word placed at an address is the one fetched there. -/
theorem fetchWord_withStoreWord (c : Config) (a : Word) (w : InstrWord) :
    fetchWord (withStoreWord c a w) a = some w := by
  unfold withStoreWord
  dsimp only
  split
  · simp [fetchWord]
  · next h =>
    simp only [fetchWord]
    rw [if_neg h]
    exact getElem?_placeWord _ _ _

theorem maxHistory_withStoreWord (c : Config) (a : Word) (w : InstrWord) :
    (withStoreWord c a w).maxHistory = c.maxHistory := by
  unfold withStoreWord
  dsimp only
  split <;> rfl

/-- The step after `withFetchWord` finds the word at `ip`. -/
theorem fetchWord_withFetchWord (s : State) (nbits w : Nat) :
    fetchWord (s.withFetchWord nbits w).cfg (s.withFetchWord nbits w).top.regs.ip = some (BitVec.ofNat 64 w) := by
  have h := fetchWord_withStoreWord s.cfg s.top.regs.ip (BitVec.ofNat 64 w)
  cases hf : s.historyFull <;> simpa [State.withFetchWord, hf, fetchWord] using h

/-- `withFetchWord` leaves room in the history. -/
theorem historyFull_withFetchWord (s : State) (nbits w : Nat) : (s.withFetchWord nbits w).historyFull = false := by
  rw [← Bool.not_eq_true, historyFull_iff]
  have hd : (s.withFetchWord nbits w).depth = s.depth := rfl
  cases hf : s.historyFull
  · have hm : (s.withFetchWord nbits w).cfg.maxHistory = s.cfg.maxHistory := by
      simp [State.withFetchWord, hf, maxHistory_withStoreWord]
    rw [hm, hd, ← historyFull_iff, hf]
    decide
  · simp [State.withFetchWord, hf]

/-- The step after `withFetchWord` runs exactly the word it was given. -/
theorem step_withFetchWord (s : State) (nbits w : Nat) :
    step (s.withFetchWord nbits w) = match decode (BitVec.ofNat 64 w) with
      | .error .unsupportedOpcode => .next ((s.withFetchWord nbits w).beginStep.raise .unsupportedOpcode 0)
      | .error .invalidOperand => .next ((s.withFetchWord nbits w).beginStep.raise .invalidOperand 0)
      | .ok i => exec i (s.withFetchWord nbits w).beginStep := by
  rw [step_running rfl (historyFull_withFetchWord s nbits w), fetchDecode, fetchWord_withFetchWord]
  dsimp only
  cases decode (BitVec.ofNat 64 w) with
  | ok i => rfl
  | error e => cases e <;> rfl

end Sys2Proof.Machine
end

