-- ==== Sys2Proof/Tests/Slice0.lean ====
section
/-! SUPPORT. Tests and witnesses. Expected results are the spec's: the words of 30_encoding.md R68 and the vectors of
95_test_vectors.md (named V-… and S…), in configuration EX1; and for every statement with hypotheses, concrete values that
meet them. -/

namespace Sys2Proof.Tests

open Sys2Proof.Machine Sys2Proof.Claims

/-! ## Small states -/

/-- The reset state of 95_test_vectors.md with the word at address `0x0100 + n`, and `ip` there. -/
def boot (n : Nat) (w : InstrWord) : State :=
  load (Config.ex1 (List.replicate n nopWord ++ [w]) [] (0x0100 + BitVec.ofNat 16 n))

/-- With the word `v` in memory at `a`. -/
def withWord (s : State) (a : Int) (v : Word) : State := s.storeWord a v

/-- With other flags. -/
def withFlags (s : State) (zf cf of : Bool) : State := { s with top := { s.top with flags := ⟨zf, cf, of⟩ } }

/-- With other parameters. -/
def withCfg (s : State) (f : Config → Config) : State := { s with cfg := f s.cfg }

/-- With a latched fault. -/
def withFault (s : State) : State := { s with fault := some ⟨.invalidOperand, 0x0100, 0⟩, below := [s.top] }

/-- The machine after a step. -/
def after (s : State) : State := (stepCall s).2

/-- The machine after an instruction. -/
def afterExec (i : Instr) (s : State) : State :=
  match exec i s with
  | .next t => t
  | _ => s

/-! ## WellFormed refuses -/

theorem test_wf_mov_immediate_destination : (Instr.mov (.imm 5) (.reg .ax)).wellFormed = false := by decide
theorem test_wf_add_memory_to_memory :
    (Instr.add (.mem .si false 0) (.mem .di false 0)).wellFormed = false := by decide
theorem test_wf_sub_immediate_destination : (Instr.sub (.imm 1) (.reg .ax)).wellFormed = false := by decide
theorem test_wf_cmp_memory_to_memory :
    (Instr.cmp (.mem .bx false 0) (.mem .si false 0)).wellFormed = false := by decide
theorem test_wf_pop_immediate : (Instr.pop (.imm 5)).wellFormed = false := by decide
theorem test_wf_mul_immediate : (Instr.mul (.imm 2)).wellFormed = false := by decide
theorem test_wf_mul_memory : (Instr.mul (.mem .si false 0)).wellFormed = false := by decide
theorem test_wf_accepts : (Instr.mov (.mem .si false 0) (.imm 5)).wellFormed = true
    ∧ (Instr.pop (.mem .si true 3)).wellFormed = true ∧ (Instr.mul (.reg .ip)).wellFormed = true
    ∧ (Instr.push (.mem .sp false 2)).wellFormed = true ∧ (Instr.call (.mem .sp false 0)).wellFormed = true := by decide

/-! ## Decoding (words of R68 and of the vectors; every constructor) -/

theorem test_decode_mov : decode 0x0800AC0002000000 = .ok (.mov (.mem .bp true 0x02) (.reg .ax)) := by decide
theorem test_decode_mov_source : decode 0x0800040000880001 = .ok (.mov (.reg .cx) (.mem .si false 1)) := by decide
theorem test_decode_add : decode 0x18008E0000400010 = .ok (.add (.mem .sp false 0) (.imm 0x10)) := by decide
theorem test_decode_sub : decode 0x2800040000400001 = .ok (.sub (.reg .cx) (.imm 1)) := by decide
theorem test_decode_cmp : decode 0x3800880000406948 = .ok (.cmp (.mem .si false 0) (.imm 0x6948)) := by decide
theorem test_decode_jmp : decode 0x4400400150000000 = .ok (.jmp (.imm 0x0150)) := by decide
theorem test_decode_jne : decode 0x5400400100000000 = .ok (.jne (.imm 0x0100)) := by decide
theorem test_decode_je : decode 0x640040FFFF000000 = .ok (.je (.imm 0xFFFF)) := by decide
theorem test_decode_push : decode 0x74008E0002000000 = .ok (.push (.mem .sp false 2)) := by decide
theorem test_decode_pop : decode 0x8400AC0004000000 = .ok (.pop (.mem .bp true 4)) := by decide
theorem test_decode_call : decode 0x94000E0000000000 = .ok (.call (.reg .sp)) := by decide
theorem test_decode_ret : decode 0xA000000000000000 = .ok .ret := by decide
theorem test_decode_mul : decode 0xB400100000000000 = .ok (.mul (.reg .ip)) := by decide
theorem test_decode_nop : decode 0xC000000000000000 = .ok .nop := by decide
theorem test_encode_worked : encode (.mov (.reg .ax) (.imm 5)) = 0x0800000000400005
    ∧ encode (.cmp (.reg .ax) (.reg .bx)) = 0x3800000000020000 ∧ encode .nop = 0xC000000000000000 := by decide

/-- V-DEC-1 to V-DEC-3, V-DEC-13. -/
theorem test_decode_unsupported : decode 0xD000000000000000 = .error .unsupportedOpcode
    ∧ decode 0xF000000000000000 = .error .unsupportedOpcode ∧ decode 0xC001000000000000 = .error .unsupportedOpcode
    ∧ decode 0xDC00000000000000 = .error .unsupportedOpcode := by decide

/-- V-DEC-4 to V-DEC-11. -/
theorem test_decode_invalid : decode 0xC400000000000000 = .error .invalidOperand
    ∧ decode 0x0C00000000400005 = .error .invalidOperand ∧ decode 0x7400000000000001 = .error .invalidOperand
    ∧ decode 0x4400C00000000000 = .error .invalidOperand ∧ decode 0x7400120000000000 = .error .invalidOperand
    ∧ decode 0x7400000001000000 = .error .invalidOperand ∧ decode 0x7400420005000000 = .error .invalidOperand
    ∧ decode 0x7400010000000000 = .error .invalidOperand := by decide

/-- V-DEC-12. -/
theorem test_decode_minus_zero :
    (after (withWord (boot 0 0x0800000000AC0000) 0x1000 5)).top.regs.ax = 5 := by decide

theorem test_table_word : decodeTableWord 64 0x0800000000000000 = some (.mov (.reg .ax) (.reg .ax))
    ∧ decodeTableWord 64 (2 ^ 64) = none := by decide

/-! ## One step of each instruction -/

/-- V-MOV-10: the high byte lands past the segment. -/
theorem test_mov_last_byte :
    let t := after (((boot 0 0x0800880000000000).setReg .si 0x0FFF).setReg .ax 0xABCD)
    t.top.mem.read 0x0FFF = 0xCD ∧ t.top.mem.read 0x1000 = 0xAB ∧ t.fault = none := by decide

/-- V-MOV-17: the effective address is -1. -/
theorem test_mov_negative_address :
    (after (boot 0 0x0800AC1001000000)).fault = some ⟨.segmentViolation, 0x0100, -1⟩ := by decide

/-- V-ADD-1. -/
theorem test_add_wraps :
    let t := after (withFlags (((boot 0 0x1800000000020000).setReg .ax 0xFFFF).setReg .bx 1) true false false)
    t.top.regs.ax = 0 ∧ t.top.flags.zf = true ∧ t.top.regs.ip = 0x0101 := by decide

/-- V-ADD-4. -/
theorem test_add_memory :
    let t := after (withWord ((boot 0 0x18008E0000400010).setReg .sp 0x0FFE) 0x0FFE 0xFFF8)
    t.top.mem.read 0x0FFE = 0x08 ∧ t.top.mem.read 0x0FFF = 0 := by decide

/-- V-SUB-1. -/
theorem test_sub_wraps :
    let t := after (withFlags (boot 0 0x2800000000400001) true false false)
    t.top.regs.ax = 0xFFFF ∧ t.top.flags.zf = false := by decide

/-- V-SUB-5: a refused write leaves `zf`. -/
theorem test_sub_refused :
    let t := after (withWord ((boot 0 0x2800880000400001).setReg .si 0x0200) 0x0200 1)
    t.top.flags.zf = false ∧ t.fault = some ⟨.segmentViolation, 0x0100, 0x0200⟩ := by decide

/-- V-CMP-6. -/
theorem test_cmp_equal :
    let t := after (withFlags (((boot 0 0x3800000000020000).setReg .ax 5).setReg .bx 5) false true true)
    t.top.flags = ⟨true, true, true⟩ ∧ t.top.regs.ax = 5 := by decide

/-- V-CMP-3: a memory destination outside the stack segment. -/
theorem test_cmp_data :
    let t := after (withWord ((boot 0 0x3800880000406948).setReg .si 0x0200) 0x0200 0x6948)
    t.top.flags.zf = true ∧ t.fault = none := by decide

/-- V-MUL-2. -/
theorem test_mul_wide :
    let t := after (((boot 0 0xB400020000000000).setReg .ax 0xFFFF).setReg .bx 0xFFFF)
    t.top.regs.ax = 1 ∧ t.top.regs.dx = 0xFFFE ∧ t.top.flags = ⟨false, true, true⟩ := by decide

/-- V-MUL-5. -/
theorem test_mul_dx :
    let t := after (((boot 0 0xB400060000000000).setReg .ax 0x10).setReg .dx 3)
    t.top.regs.ax = 0x30 ∧ t.top.regs.dx = 0 ∧ t.top.flags.cf = false := by decide

/-- V-JMP-6. -/
theorem test_jmp_memory :
    (after (withWord ((boot 0 0x44008E0000000000).setReg .sp 0x0FFE) 0x0FFE 0x0120)).top.regs.ip = 0x0120 := by decide

/-- V-JMP-3. -/
theorem test_jmp_limit :
    let t := after (boot 0 0x4400400200000000)
    t.top.regs.ip = 0x0101 ∧ t.fault = some ⟨.invalidAddress, 0x0100, 0x0200⟩ := by decide

/-- V-JNE-1. -/
theorem test_jne_taken : (after (boot 4 0x5400400100000000)).top.regs.ip = 0x0100 := by decide

/-- V-JNE-3. -/
theorem test_jne_not_taken :
    let t := after (withFlags (boot 0 0x5400400000000000) true false false)
    t.top.regs.ip = 0x0101 ∧ t.fault = none := by decide

/-- V-JE-2. -/
theorem test_je_taken :
    (after (withFlags (boot 4 0x6400400100000000) true false false)).top.regs.ip = 0x0100 := by decide

/-- V-JE-4. -/
theorem test_je_invalid :
    (after (withFlags (boot 0 0x640040FFFF000000) true false false)).fault = some ⟨.invalidAddress, 0x0100, 0xFFFF⟩ := by
  decide

/-- V-PUSH-3. -/
theorem test_push_sp :
    let t := after (boot 0 0x74000E0000000000)
    t.top.regs.sp = 0x0FFE ∧ t.top.mem.read 0x0FFE = 0xFE ∧ t.top.mem.read 0x0FFF = 0x0F := by decide

/-- V-PUSH-8. -/
theorem test_push_refused :
    let t := after (withCfg ((boot 0 0x7400000000000000).setReg .sp 2) ({ · with pushSetsZf := true }))
    t.top.regs.sp = 0 ∧ t.top.flags.zf = true ∧ t.fault = some ⟨.segmentViolation, 0x0100, 0⟩ := by decide

/-- V-POP-3. -/
theorem test_pop_sp :
    (after (withWord ((boot 0 0x84000E0000000000).setReg .sp 0x0FFE) 0x0FFE 0x0F00)).top.regs.sp = 0x0F02 := by decide

/-- V-POP-4. -/
theorem test_pop_memory :
    let t := after (withWord ((boot 0 0x8400AC0004000000).setReg .sp 0x0FFE) 0x0FFE 0xABCD)
    t.top.mem.read 0x0FFC = 0xCD ∧ t.top.mem.read 0x0FFD = 0xAB ∧ t.top.regs.sp = 0x1000 := by decide

/-- V-CALL-4: the target is read after the push. -/
theorem test_call_pushed_target :
    let t := after (boot 2 0x94008E0000000000)
    t.top.regs.sp = 0x0FFE ∧ t.top.regs.ip = 0x0103 ∧ t.memoryRead 0x0FFE = 0x0103 := by decide

/-- V-CALL-2. -/
theorem test_call_invalid :
    let t := after (boot 2 0x9400400300000000)
    t.top.regs.sp = 0x0FFE ∧ t.memoryRead 0x0FFE = 0x0103 ∧ t.fault = some ⟨.invalidAddress, 0x0102, 0x0300⟩ := by decide

/-- V-RET-1. -/
theorem test_ret :
    let t := after (withWord ((boot 0 0xA000000000000000).setReg .sp 0x0FFE) 0x0FFE 0x0103)
    t.top.regs.sp = 0x1000 ∧ t.top.regs.ip = 0x0103 := by decide

/-- V-RET-2. -/
theorem test_ret_empty :
    let t := after (boot 0 0xA000000000000000)
    t.top.regs.sp = 0x1000 ∧ t.fault = some ⟨.invalidAddress, 0x0100, 0⟩ := by decide

/-- V-NOP-1. -/
theorem test_nop : (after (boot 0 0xC000000000000000)).top = { (boot 0 0xC000000000000000).top with
    regs := { (boot 0 0xC000000000000000).top.regs with ip := 0x0101 } } := by decide

/-! ## Steps, history and load -/

/-- S4: a full history refuses, and `prev()` makes room. -/
theorem test_history_full :
    let s := after (withCfg (boot 0 nopWord) ({ · with maxHistory := some 2 }))
    stepCall s = (.historyFull, s) ∧ s.depth = 2 ∧ s.prev.depth = 1 := by decide

/-- S3: a latched fault comes back, and `prev()` clears it. -/
theorem test_latched :
    let s := after ((boot 0 nopWord).setReg .ip 0x00FF)
    stepCall s = (.err ⟨.invalidAddress, 0x00FF, 0x00FF⟩, s) ∧ s.top.regs.ip = 0x0100 ∧ s.prev.fault = none := by decide

/-- Log entry 7: the first step after reset with a word placed runs it. -/
theorem test_placed_word :
    (after (State.reset.withFetchWord 64 0x0800000000400005)).top.regs.ax = 5 := by decide

/-- The source text of program P3, with a comment added. -/
def sourceP3 : List Text := [
  ['.', 'd', 'a', 't', 'a'],
  ['m', 's', 'g', ':'],
  [' ', '.', 's', 't', 'r', 'i', 'n', 'g', ' ', '"', 'H', 'i', '"'],
  ['.', 't', 'e', 'x', 't', ' ', ';', 'c'],
  ['_', 's', 't', 'a', 'r', 't', ':'],
  [' ', 'm', 'o', 'v', ' ', 's', 'i', ',', ' ', 'm', 's', 'g'],
  [' ', 'm', 'o', 'v', ' ', 'a', 'x', ',', ' ', '[', 's', 'i', ']'],
  [' ', 'm', 'o', 'v', ' ', '[', 'b', 'p', '-', '0', 'x', '2', ']', ',', ' ', 'a', 'x'],
  [' ', 'c', 'm', 'p', ' ', '[', 'b', 'p', '-', '0', 'x', '2', ']', ',', ' ', '0', 'x', '6', '9', '4', '9']]

/-- P3: the store words, the data image and `ENTRY`. -/
theorem test_assemble : assemble (Config.ex1 [] [] 0) sourceP3 = .ok (Config.ex1
    [0x0800080000400200, 0x0800000000880000, 0x0800AC0002000000, 0x3800AC0002406949] [0x48, 0x69] 0x0100) := by decide

/-- `jmp _start` without a `_start`: the synthesized label is the Immediate `TEXT_BASE` (R75); the word is V-JMP-2's. -/
theorem test_assemble_synthesized_start :
    assemble (Config.ex1 [] [] 0) [['j', 'm', 'p', ' ', '_', 's', 't', 'a', 'r', 't']] =
      .ok (Config.ex1 [0x4400400100000000] [] 0x0100) := by decide

/-- A label that is not declared is a ParseError, and no machine (R76). -/
theorem test_assemble_error :
    loadSource (Config.ex1 [] [] 0) [['j', 'm', 'p', ' ', 'z', 'z']] = .error ⟨['z', 'z']⟩ := by decide

/-- P3: the display text of `mov [bp-0x2], ax`. -/
theorem test_display : showInstr (.mov (.mem .bp true 2) (.reg .ax)) =
    ['m', 'o', 'v', ' ', '[', 'b', 'p', '-', '0', 'x', '0', '0', '0', '2', ']', ',', ' ', 'a', 'x'] := by decide

/-! ## Witnesses

For each statement with hypotheses, concrete values that meet all of them together, for every clause. -/

/-- The reset state of the vectors, with a store of one `nop` and `ip` at address 0x0101, as during a first step. -/
def running : State := (boot 0 nopWord).setReg .ip 0x0101

/-- `exec` always answers a next state. -/
theorem exec_afterExec (i : Instr) (s : State) : exec i s = .next (afterExec i s) := by
  obtain ⟨t, h, _⟩ := exec_stageFive i s
  simp only [afterExec, h]

/-- A step that neither the latch nor the history stops answers a next state. -/
theorem step_after {s : State} (hf : s.fault = none) (hh : s.historyFull = false) : step s = .next (after s) := by
  have h := step_running hf hh
  cases hd : fetchDecode s.cfg s.top.regs.ip with
  | error e =>
    rw [hd] at h
    simp only [after, stepCall, h]
    rfl
  | ok i =>
    rw [hd] at h
    have ha := exec_afterExec i s.beginStep
    dsimp only at h
    rw [ha] at h
    cases hq : (afterExec i s.beginStep).fault <;> simp only [after, stepCall, h, hq]

/-- A state in which a write needs both its bytes in the segment. -/
def strict : State := withCfg running ({ · with checkHighByte := true })

/-- Words of the first two rows of R66, one of them fetched. -/
theorem witness_ReservedWordsRaiseTheirFault :
    Running (boot 0 0xD000000000000000) ∧ FetchedWord (boot 0 0xD000000000000000) 0xD000000000000000
    ∧ UnsupportedWord 0xD000000000000000 ∧ UnsupportedWord 0xC001000000000000 := by
  unfold Running FetchedWord UnsupportedWord
  decide

/-- A wrong operand count, a slot beyond the count, a reserved kind, RSV1, a reserved register, a register slot with a
value, an immediate slot with a register: V-DEC-4 and V-DEC-6 to V-DEC-11. -/
theorem witness_ReservedWordsRaiseTheirFault_operands :
    Running (boot 0 0xC400000000000000) ∧ FetchedWord (boot 0 0xC400000000000000) 0xC400000000000000
    ∧ ∀ w ∈ ([0xC400000000000000, 0x7400000000000001, 0x4400C00000000000, 0x7400010000000000, 0x7400120000000000,
      0x7400000001000000, 0x7400420005000000] : List InstrWord), ¬ UnsupportedWord w ∧ BadOperandsWord w := by
  refine ⟨?_, ?_, fun w hw => ?_⟩
  · unfold Running; decide
  · unfold FetchedWord; decide
  · fin_cases hw <;> (constructor <;> simp [UnsupportedWord, BadOperandsWord, BadSlot])

/-- The highest opcode and register numbers that are no reserved words. -/
theorem witness_ReservedWordsRaiseTheirFault_legal :
    Running (boot 0 0x7400100000000000) ∧ FetchedWord (boot 0 0x7400100000000000) 0x7400100000000000
    ∧ ∀ w ∈ ([0x7400100000000000, 0xC000000000000000] : List InstrWord), ¬ UnsupportedWord w ∧ ¬ BadOperandsWord w := by
  refine ⟨?_, ?_, fun w hw => ?_⟩
  · unfold Running; decide
  · unfold FetchedWord; decide
  · fin_cases hw <;> (constructor <;> simp [UnsupportedWord, BadOperandsWord, BadSlot])

theorem witness_EveryInstructionHasOneAcceptedWord : decode 0xC000000000000000 = .ok .nop := by decide

theorem witness_CheckedStoreWritesBothBytesOrNeither :
    CanStore running.cfg 0x0F00 ∧ CanStore running.cfg 0x0FFF ∧ ¬ CanStore running.cfg 0x0EFF
    ∧ ¬ CanStore running.cfg 0x1000 ∧ CanStore strict.cfg 0x0FFE ∧ ¬ CanStore strict.cfg 0x0FFF
    ∧ running.top.mem.wf ∧ strict.top.mem.wf := by
  unfold CanStore
  decide

theorem witness_CanonicalMemoriesAreExtensional : ∃ m m' : Memory, m.wf ∧ m'.wf ∧ (∀ a, m.read a = m'.read a) := by
  refine ⟨(Memory.empty.write (-1) 5).write 2 6, (Memory.empty.write 2 6).write (-1) 5, by decide, by decide, fun a => ?_⟩
  rw [show (Memory.empty.write (-1) 5).write 2 6 = (Memory.empty.write 2 6).write (-1) 5 by decide]

/-- The cases of `mov`, `add` and `sub`: both refused kinds, a refused address on each side of the segment, a register and
a memory destination. -/
theorem witness_MovCopiesSourceToDestination :
    ((Operand.imm 5).isImm = true ∧ (Operand.mem .si false 0).isMem = true)
    ∧ (Operand.reg .ax).isMem = false
    ∧ ¬ CanStore running.cfg (running.effAddr .bp false 0) ∧ ¬ CanStore running.cfg (running.effAddr .bp true 0x101)
    ∧ ¬ CanStore running.cfg (running.effAddr .bp true 0x1001)
    ∧ ((Operand.reg .ip).isImm = false ∧ DestinationOpen (.reg .ip) running)
    ∧ (DestinationOpen (.mem .bp true 1) running ∧ (Operand.mem .bp true 1).isImm = false
      ∧ (Operand.reg .ax).isMem = false ∧ running.top.mem.wf) := by
  refine ⟨by decide, by decide, ?_, ?_, ?_, ⟨by decide, nofun⟩, ?_, by decide, by decide, by decide⟩
  iterate 3 unfold CanStore; decide
  rintro b neg d ⟨⟩
  unfold CanStore
  decide

theorem witness_AddWritesTheSumModulo16Bits : DestinationOpen (.mem .bp true 1) running
    ∧ ¬ CanStore running.cfg (running.effAddr .bp false 0) ∧ running.top.mem.wf :=
  have h := witness_MovCopiesSourceToDestination
  ⟨h.2.2.2.2.2.2.1, h.2.2.1, by decide⟩

theorem witness_SubWritesTheDifferenceAndZf : DestinationOpen (.mem .bp true 1) running
    ∧ ¬ CanStore running.cfg (running.effAddr .bp false 0) ∧ running.top.mem.wf :=
  witness_AddWritesTheSumModulo16Bits

theorem witness_CmpWritesOnlyZf : (Operand.imm 5).isImm = true
    ∧ ((Operand.mem .bx false 0).isMem = true ∧ (Operand.mem .si false 0).isMem = true)
    ∧ ((Operand.mem .si false 0).isImm = false ∧ ¬ ((Operand.mem .si false 0).isMem = true ∧ (Operand.imm 5).isMem = true)) := by
  decide

theorem witness_MulWritesTheProductHalvesAndWideFlags : (Operand.imm 2).isReg = false
    ∧ (Operand.mem .si false 0).isReg = false ∧ ∃ r, Operand.reg .dx = .reg r := ⟨rfl, rfl, .dx, rfl⟩

/-- The text segment's two ends, as immediate targets. -/
theorem witness_JmpGoesToATargetInText :
    ¬ InText running.cfg (running.readOp (.imm 0x00FF)) ∧ InText running.cfg (running.readOp (.imm 0x0100))
    ∧ InText running.cfg (running.readOp (.imm 0x01FF)) ∧ ¬ InText running.cfg (running.readOp (.imm 0x0200)) := by
  unfold InText
  decide

theorem witness_JneJumpsExactlyWhenZfIsClear : (withFlags running true false false).top.flags.zf = true
    ∧ running.top.flags.zf = false ∧ ¬ InText running.cfg (running.readOp (.imm 0x00FF))
    ∧ InText running.cfg (running.readOp (.imm 0x0100)) :=
  have h := witness_JmpGoesToATargetInText
  ⟨by decide, by decide, h.1, h.2.1⟩

theorem witness_JeJumpsExactlyWhenZfIsSet : running.top.flags.zf = false
    ∧ (withFlags running true false false).top.flags.zf = true
    ∧ ¬ InText (withFlags running true false false).cfg ((withFlags running true false false).readOp (.imm 0x0200))
    ∧ InText (withFlags running true false false).cfg ((withFlags running true false false).readOp (.imm 0x01FF)) := by
  unfold InText
  decide

/-- A new `sp` just below the segment, at its first address and at its last but one; and `sp = 0`. -/
theorem witness_PushStoresTheSourceBelowTheStack :
    ¬ CanStore running.cfg ((running.setReg .sp 0x0F01).top.regs.sp - 2).toNat
    ∧ ¬ CanStore running.cfg ((running.setReg .sp 0).top.regs.sp - 2).toNat
    ∧ CanStore running.cfg ((running.setReg .sp 0x0F02).top.regs.sp - 2).toNat
    ∧ CanStore running.cfg (running.top.regs.sp - 2).toNat ∧ running.top.mem.wf := by
  unfold CanStore
  decide

theorem witness_PopWritesTheTopWordThenRaisesSp : (Operand.imm 5).isImm = true
    ∧ ¬ CanStore running.cfg (running.effAddr .si false 0)
    ∧ ((Operand.reg .bx).isImm = false ∧ DestinationOpen (.reg .bx) running ∧ RegId.bx ≠ .sp)
    ∧ DestinationOpen (.reg .sp) running
    ∧ DestinationOpen (.mem .bp true 4) running ∧ running.top.mem.wf := by
  refine ⟨by decide, by unfold CanStore; decide, ⟨by decide, nofun, by decide⟩, nofun, ?_, by decide⟩
  rintro b neg d ⟨⟩
  unfold CanStore
  decide

theorem witness_CallPushesTheReturnAddressAndJumps :
    ¬ CanStore running.cfg ((running.setReg .sp 0x0F00).top.regs.sp - 2).toNat
    ∧ (CanStore running.cfg (running.top.regs.sp - 2).toNat
      ∧ ¬ InText running.cfg ((returnPushed running).readOp (.imm 0x0300)))
    ∧ (CanStore running.cfg (running.top.regs.sp - 2).toNat
      ∧ InText running.cfg ((returnPushed running).readOp (.mem .sp false 0)) ∧ running.top.mem.wf) := by
  unfold CanStore InText
  decide

theorem witness_RetJumpsToTheTopWordThenRaisesSp :
    ¬ InText running.cfg (running.memRead running.top.regs.sp.toNat)
    ∧ InText running.cfg ((withWord running 0x1000 0x0103).memRead running.top.regs.sp.toNat) := by
  unfold InText
  decide

theorem witness_NopChangesOnlyIpAndHistory :
    Running (boot 0 0xC000000000000000) ∧ FetchedWord (boot 0 0xC000000000000000) 0xC000000000000000 := by
  unfold Running FetchedWord
  decide

/-- One completing form of each instruction, in `running`. -/
def completing : List Instr := [.mov (.reg .ax) (.imm 5), .add (.mem .bp true 2) (.reg .ip), .sub (.reg .cx) (.imm 1),
  .cmp (.mem .si false 0) (.imm 0), .jmp (.imm 0x0100), .jne (.imm 0x0100), .je (.imm 0), .push (.reg .sp), .pop (.reg .sp),
  .call (.imm 0x0100), .mul (.reg .dx), .nop]

/-- Every instruction completes somewhere; `ret` with a return address on the stack. -/
theorem witness_FlagsAreWrittenOnlyAsTabled :
    (∀ i ∈ completing, exec i running = .next (afterExec i running) ∧ running.fault = none
      ∧ (afterExec i running).fault = none)
    ∧ ∃ s t, exec .ret s = .next t ∧ s.fault = none ∧ t.fault = none :=
  ⟨fun i hi => ⟨exec_afterExec i _, rfl, (by decide : ∀ i ∈ completing, (afterExec i running).fault = none) i hi⟩,
    withWord running 0x1000 0x0103, _, exec_afterExec .ret _, rfl, by decide⟩

theorem witness_NoInstructionReadsCfOrOf : ∀ i ∈ completing, exec i running = .next (afterExec i running) :=
  fun i _ => exec_afterExec i running

theorem witness_StepRunsTheDecodedInstruction : Running (boot 0 0x7400000000000000)
    ∧ FetchedWord (boot 0 0x7400000000000000) 0x7400000000000000 ∧ decode 0x7400000000000000 = .ok (.push (.reg .ax)) := by
  unfold Running FetchedWord
  decide

/-- The first two stages' cases: latched, full. -/
theorem witness_StepFollowsItsStages_stopped :
    (withFault running).fault = some ⟨.invalidOperand, 0x0100, 0⟩
    ∧ (withCfg (boot 0 nopWord) ({ · with maxHistory := some 1 })).fault = none
    ∧ (withCfg (boot 0 nopWord) ({ · with maxHistory := some 1 })).cfg.maxHistory =
      some (withCfg (boot 0 nopWord) ({ · with maxHistory := some 1 })).depth := by decide

/-- An index just below and just past the store, and at its only entry a word of each decoding result. -/
theorem witness_StepFollowsItsStages :
    (Running (running.setReg .ip 0x00FF) ∧ fetchIndex (running.setReg .ip 0x00FF) = -1)
    ∧ (Running running ∧ fetchIndex running = running.cfg.nInstr)
    ∧ (Running (boot 0 nopWord) ∧ 0 ≤ fetchIndex (boot 0 nopWord)
      ∧ fetchIndex (boot 0 nopWord) < (boot 0 nopWord).cfg.nInstr ∧ decode nopWord = .ok .nop)
    ∧ (FetchedWord (boot 0 0xD000000000000000) 0xD000000000000000
      ∧ decode 0xD000000000000000 = .error .unsupportedOpcode)
    ∧ (FetchedWord (boot 0 0xC400000000000000) 0xC400000000000000
      ∧ decode 0xC400000000000000 = .error .invalidOperand) := by
  unfold Running FetchedWord
  decide

/-- A handler that raises a fault and one that does not. -/
theorem witness_StepFollowsItsStages_result :
    (afterExec (.jmp (.imm 0)) running).fault = some ⟨.invalidAddress, 0x0100, 0⟩
    ∧ (afterExec (.jmp (.imm 0x0100)) running).fault = none := by decide

theorem witness_PrevUndoesAnyStep : step (boot 0 nopWord) = .next (after (boot 0 nopWord))
    ∧ ∀ t, step (withFault running) ≠ .next t := by
  refine ⟨step_after rfl (by decide), fun t h => ?_⟩
  have hf : step (withFault running) = .fault (.latched ⟨.invalidOperand, 0x0100, 0⟩) := rfl
  rw [hf] at h
  cases h

/-- The latched state after S1's second step meets the invariant. -/
theorem witness_PrevPopsOneEntryAndClearsTheLatch : (∃ e rest, (after running).below = e :: rest)
    ∧ running.depth = 1 ∧ (after running).Inv ∧ (after running).fault ≠ none :=
  ⟨⟨_, _, rfl⟩, rfl, ⟨by decide, by decide, fun _ => by decide, nofun⟩, by decide⟩

theorem witness_StepAddsOneHistoryEntry : step running = .next (after running) := step_after rfl (by decide)

theorem witness_ConfigurationIsNeverWritten : step (boot 0 nopWord) = .next (after (boot 0 nopWord)) :=
  step_after rfl (by decide)

/-- A `push` in a machine whose writes check both bytes. -/
def strictPush : State := withCfg (boot 0 0x7400000000000000) ({ · with checkHighByte := true })

/-- Addresses just outside the segment, with and without the high-byte check, around a step that stores. -/
theorem witness_StepChangesMemoryOnlyInTheStackSegment :
    step (boot 0 0x7400000000000000) = .next (after (boot 0 0x7400000000000000))
    ∧ (0x0EFF : Int) < (boot 0 0x7400000000000000).cfg.stackLo ∧ (boot 0 0x7400000000000000).cfg.stackHi ≤ (0x1001 : Int)
    ∧ (0x1001 : Int) ≠ (boot 0 0x7400000000000000).cfg.stackHi
    ∧ step strictPush = .next (after strictPush) ∧ strictPush.cfg.stackHi ≤ (0x1000 : Int)
    ∧ ¬ strictPush.cfg.checkHighByte = false :=
  ⟨step_after rfl (by decide), by decide, by decide, by decide, step_after rfl (by decide), by decide, by decide⟩

/-- A step that raises each kind. -/
theorem witness_FaultRecordSaysWhatFailed : ∀ p ∈ ([(0xD000000000000000, .unsupportedOpcode),
      (0x8400400005000000, .invalidOperand), (0x0800880000000000, .segmentViolation),
      (0x4400400200000000, .invalidAddress)] : List (InstrWord × FaultKind)),
    step (boot 0 p.1) = .next (after (boot 0 p.1)) ∧ (after (boot 0 p.1)).fault.map FaultRecord.kind = some p.2 := by
  intro p hp
  exact ⟨step_after rfl rfl, by revert p; decide⟩

theorem witness_InvalidOperandExactlyForRefusedKinds :
    running.fault = none ∧ (Instr.pop (.imm 5)).wellFormed = false
    ∧ exec (.pop (.imm 5)) running = .next (afterExec (.pop (.imm 5)) running)
    ∧ (afterExec (.pop (.imm 5)) running).fault = some ⟨.invalidOperand, 0x0100, 0⟩ :=
  ⟨rfl, by decide, exec_afterExec _ _, by decide⟩

/-- A faulting form of each instruction that can fault, in `running`, with the kind. -/
def faulting : List (Instr × FaultKind) := [(.mov (.mem .bp false 2) (.reg .ax), .segmentViolation),
  (.add (.mem .si false 0) (.reg .ax), .segmentViolation), (.sub (.imm 1) (.reg .ax), .invalidOperand),
  (.cmp (.mem .bx false 0) (.mem .si false 0), .invalidOperand), (.jmp (.imm 0x0200), .invalidAddress),
  (.jne (.imm 0), .invalidAddress), (.pop (.mem .si false 0), .segmentViolation), (.call (.imm 0), .invalidAddress),
  (.ret, .invalidAddress), (.mul (.imm 2), .invalidOperand)]

/-- `je` and `push` fault in these. -/
def faultingJe : State := withFlags running true false false

/-- The new `sp` is 0xFFFE. -/
def faultingPush : State := running.setReg .sp 0

theorem witness_FaultKindsEachInstructionCanRaise :
    (∀ p ∈ faulting, exec p.1 running = .next (afterExec p.1 running) ∧ running.fault = none
      ∧ (afterExec p.1 running).fault.map FaultRecord.kind = some p.2)
    ∧ (exec (.je (.imm 0)) faultingJe = .next (afterExec (.je (.imm 0)) faultingJe) ∧ faultingJe.fault = none
      ∧ (afterExec (.je (.imm 0)) faultingJe).fault.map FaultRecord.kind = some .invalidAddress)
    ∧ (∀ i ∈ [Instr.push (.reg .ax), Instr.call (.imm 0)],
      exec i faultingPush = .next (afterExec i faultingPush) ∧ faultingPush.fault = none
      ∧ (afterExec i faultingPush).fault.map FaultRecord.kind = some .segmentViolation) :=
  ⟨fun p hp => ⟨exec_afterExec _ _, rfl, by revert p; decide⟩, ⟨exec_afterExec _ _, rfl, by decide⟩,
    fun i hi => ⟨exec_afterExec _ _, rfl, by revert i; decide⟩⟩

/-- The word of each of these faults when it is stepped at: one that does not decode, and one of each instruction that can
fault in the reset state. -/
def faultingWords : List InstrWord := [0xD000000000000000, 0x08008C0002000000, 0x1800880000000000, 0x2800880000400001,
  0x3800820000880000, 0x4400400200000000, 0x5400400000000000, 0x8400400005000000, 0x9400400300000000, 0xA000000000000000,
  0xB400400002000000]

theorem witness_FaultingStepLeavesOnlyTheTabledEffects :
    (∀ w ∈ faultingWords, step (boot 0 w) = .next (after (boot 0 w)) ∧ (after (boot 0 w)).fault ≠ none
      ∧ FetchedWord (boot 0 w) w)
    ∧ (∀ w ∈ faultingWords.tail, ∃ i, decode w = .ok i) ∧ decode faultingWords[0] = .error .unsupportedOpcode := by
  refine ⟨fun w hw => ⟨step_after rfl rfl, ?_, ?_⟩, fun w hw => ?_, by decide⟩
  · fin_cases hw <;> decide
  · unfold FetchedWord
    fin_cases hw <;> decide
  · fin_cases hw <;> exact ⟨_, rfl⟩

/-- `je` when taken; `push`, and `call` at a refused `sp`. -/
theorem witness_FaultingStepLeavesOnlyTheTabledEffects_more :
    (after (withFlags (boot 0 0x640040FFFF000000) true false false)).fault.map FaultRecord.kind = some .invalidAddress
    ∧ (after ((boot 0 0x7400000000000000).setReg .sp 0)).fault.map FaultRecord.kind = some .segmentViolation
    ∧ (after ((boot 0 0x9400400105000000).setReg .sp 0)).fault.map FaultRecord.kind = some .segmentViolation := by decide

theorem witness_InstructionsIgnoreHistoryAndLatch :
    ∀ i ∈ completing, exec i running = .next (afterExec i running) :=
  fun i _ => exec_afterExec i running

theorem witness_StepPastTheEndFaults : running.atNormalEnd ∧ running.cfg.maxHistory ≠ some running.depth := by
  unfold State.atNormalEnd
  decide

theorem witness_StepKeepsTheInvariant : (boot 0 0x7400000000000000).Inv
    ∧ step (boot 0 0x7400000000000000) = .next (after (boot 0 0x7400000000000000)) :=
  ⟨⟨by decide, by decide, fun h => absurd rfl h, nofun⟩, step_after rfl (by decide)⟩

theorem witness_PrevKeepsTheInvariant : (after (boot 0 0x7400000000000000)).Inv :=
  ⟨by decide, by decide, fun _ => by decide, nofun⟩

/-- The data image of P3, its bytes and the addresses just outside it. -/
theorem witness_LoadPlacesTheDataImage :
    let c := Config.ex1 [] [0x48, 0x69] 0x0100
    c.dataImage[1]? = some 0x69 ∧ (0x01FF : Int) < c.dataBase ∧ c.dataBase + c.dataSize ≤ (0x0202 : Int) := by decide

theorem witness_LoadAndResetMeetTheInvariant : (Config.ex1 [nopWord] [0x48, 0x69] 0x0100).WellFormed := by decide

/-- The tightest strict stack segment. -/
theorem witness_StackIsUsableAfterLoad :
    let c := { Config.ex1 [nopWord] [] 0x0100 with checkHighByte := true, stackLo := 0x0FFE }
    c.WellFormed ∧ (c.checkHighByte = true → (c.stackBase.toNat : Int) ≤ c.stackHi) := by decide

theorem witness_OperandTextReadsBack : (∀ b, Operand.mem .bp true 2 ≠ .mem b true 0)
    ∧ ∀ b, Operand.mem .bp false 0 ≠ .mem b true 0 := ⟨nofun, nofun⟩

theorem witness_AssembledWordsDecode : ∃ c, assemble (Config.ex1 [] [] 0) sourceP3 = .ok c
    ∧ (0x0800080000400200 : InstrWord) ∈ c.store := ⟨_, test_assemble, by decide⟩

/-- What is read of a source without a `_start`. -/
def noStart : Scan := ⟨false, [(['n', 'o', 'p'], [])], [], ⟨[], []⟩⟩

/-- What is read of a source with a `_start` at text offset 1. -/
def lateStart : Scan := ⟨false, [(['n', 'o', 'p'], []), (['n', 'o', 'p'], [])], [], ⟨[(startName, 1)], []⟩⟩

theorem witness_EntryIsTheStartLabelOrTheTextBase :
    (assemble (Config.ex1 [] [] 0) [['n', 'o', 'p']] = .ok (Config.ex1 [nopWord] [] 0x0100)
      ∧ Scan.start.lineList [['n', 'o', 'p']] = .ok noStart ∧ noStart.labels.text.lookup startName = none
      ∧ noStart.labels.data.lookup startName = none)
    ∧ (assemble (Config.ex1 [] [] 0) [['n', 'o', 'p'], startName ++ [':'], ['n', 'o', 'p']] =
        .ok (Config.ex1 [nopWord, nopWord] [] 0x0101)
      ∧ Scan.start.lineList [['n', 'o', 'p'], startName ++ [':'], ['n', 'o', 'p']] = .ok lateStart
      ∧ lateStart.labels.text.lookup startName = some 1 ∧ lateStart.labels.data.lookup startName = none) := by decide

theorem witness_ListingHasOneEntryPerInstruction : running.cfg.store[0]? = some nopWord := by decide

end Sys2Proof.Tests
end

section
/-! PROOF. The parameters of R7 and the state after load: the invariant holds in every machine a host may start from. -/

namespace Sys2Proof

/-- R7's bound on `MAX_HISTORY`, taken out of the conjunction. -/
theorem Config.WellFormed.two_le_maxHistory {c : Config} (h : c.WellFormed) {m : Nat} (hm : c.maxHistory = some m) :
    2 ≤ m := by
  obtain ⟨-, -, -, -, -, -, -, -, -, -, hmax, -⟩ := h
  exact hmax m hm

theorem Config.wellFormed_atReset : Config.atReset.WellFormed := by decide

namespace Machine

@[simp] theorem load_depth (c : Config) : (load c).depth = 1 := rfl

theorem Snapshot.wf_mem_initial (c : Config) : (Snapshot.initial c).mem.wf :=
  Memory.wf_place _ _ _ Memory.wf_empty

/-- Of R7 only the bound on `MAX_HISTORY` is used: the one entry load makes must fit. -/
theorem load_inv {c : Config} (h : c.WellFormed) : (load c).Inv where
  topMem := Snapshot.wf_mem_initial c
  belowMem := by simp
  latchDepth := by simp
  bounded m hm := by
    have hcap : 2 ≤ m := h.two_le_maxHistory hm
    rw [load_depth]
    omega

/-- The data image of `Config.atReset` is empty, so load leaves memory as it was. -/
theorem reset_eq_load_atReset : State.reset = load Config.atReset := rfl

theorem reset_inv : State.reset.Inv := by
  rw [reset_eq_load_atReset]
  exact load_inv Config.wellFormed_atReset

/-- Settles O43: load gives canonical memory, a clear latch and one entry, and reset is such a load. -/
theorem loadAndResetMeetTheInvariant : Obligations.LoadAndResetMeetTheInvariant :=
  ⟨fun _ h => load_inv h, reset_inv, reset_eq_load_atReset⟩

end Machine
end Sys2Proof
end

section
/-! PROOF. The state's frames that need no run of a handler: a register write, the machine after load with the data image
in memory, and what a step and the host's calls leave of the history and the configuration. -/

namespace Sys2Proof.Machine

open Sys2Proof.Claims

/-- Settles O5: the write is `Registers.set` on the active snapshot, and the rest of the state is carried over. -/
theorem registerWriteChangesOneRegister : Obligations.RegisterWriteChangesOneRegister := by
  intro s r v
  have hothers : RegsKept [r] s (s.setReg r v) := fun r' hr =>
    s.top.regs.get_set_of_ne v (List.ne_of_not_mem_cons hr)
  exact ⟨s.top.regs.get_set_self r v, hothers, rfl, fun _ => rfl, rfl, rfl, rfl⟩

/-! ## Load -/

/-- The initial registers of R31, one by one. -/
theorem Registers.get_initial (c : Config) (r : RegId) : (Registers.initial c).get r =
    if r = .sp ∨ r = .bp then c.stackBase else if r = .ip then c.entry else 0 := by
  cases r <;> rfl

/-- Settles O41: load takes the initial registers and flags, one history entry and a clear latch. -/
theorem loadResetsRegistersFlagsHistoryAndLatch : Obligations.LoadResetsRegistersFlagsHistoryAndLatch :=
  fun c => ⟨Registers.get_initial c, rfl, load_depth c, load_fault c, load_cfg c⟩

@[simp] theorem Memory.read_empty (a : Int) : Memory.empty.read a = 0 := by cases a <;> rfl

/-- Placing bytes leaves every address outside their range alone. -/
theorem Memory.read_place_of_outside (m : Memory) {a x : Int} (l : List Byte) (h : x < a ∨ a + l.length ≤ x) :
    (m.place a l).read x = m.read x := by
  induction l generalizing m a with
  | nil => rfl
  | cons b rest ih =>
    rw [List.length_cons] at h
    have hrest : x < a + 1 ∨ a + 1 + rest.length ≤ x := by omega
    rw [Memory.place, ih _ hrest, Memory.read_write_of_ne _ _ (by omega)]

/-- Byte `i` of a placed list is at offset `i`: the bytes placed after it go to higher addresses. -/
theorem Memory.read_place_of_getElem? {m : Memory} (hm : m.wf) (a : Int) {l : List Byte} {i : Nat} {b : Byte}
    (h : l[i]? = some b) : (m.place a l).read (a + i) = b := by
  induction l generalizing m a i with
  | nil => simp at h
  | cons b' rest ih =>
    have hw : (m.write a b').wf := m.wf_write a b' hm
    cases i with
    | zero =>
      obtain rfl : b' = b := by simpa using h
      rw [Memory.place, Memory.read_place_of_outside _ _ (by omega)]
      simpa using m.read_write_self a b' hm
    | succ j =>
      have hread := ih hw (a + 1) (i := j) (by simpa using h)
      rwa [Memory.place, show a + ((j + 1 : Nat) : Int) = a + 1 + j by omega]

/-- Settles O42, by induction over the placed image. -/
theorem loadPlacesTheDataImage : Obligations.LoadPlacesTheDataImage := by
  intro c
  refine ⟨fun i b h => Memory.read_place_of_getElem? Memory.wf_empty c.dataBase h, fun a ha => ?_⟩
  calc (load c).top.mem.read a = Memory.empty.read a := Memory.read_place_of_outside _ _ ha
    _ = 0 := Memory.read_empty a

/-! ## History and configuration -/

/-- Settles O30: stage 1 pushes the old active snapshot and stage 5 leaves the history alone. -/
theorem stepAddsOneHistoryEntry : Obligations.StepAddsOneHistoryEntry := by
  intro s t h
  obtain ⟨-, -, hfive⟩ := step_cases h
  have hbelow : t.below = s.top :: s.below := hfive.below
  exact ⟨hbelow, by simp [State.depth, hbelow]⟩

theorem step_cfg {s t : State} (h : step s = .next t) : t.cfg = s.cfg := by
  obtain ⟨-, -, hfive⟩ := step_cases h
  exact hfive.cfg

/-- The machine after a call of `step()`: the next state where `step` answers one, else the machine before it. -/
theorem stepCall_state (s : State) : step s = .next (stepCall s).2 ∨ (stepCall s).2 = s := by
  unfold stepCall
  cases h : step s with
  | next t => left; cases ht : t.fault <;> simp [ht]
  | fault r => exact .inr rfl
  | refused r => exact .inr rfl

theorem State.prev_cfg (s : State) : s.prev.cfg = s.cfg := by
  cases h : s.below with
  | nil => rw [s.prev_nil h]
  | cons e rest => rw [s.prev_cons h]

/-- Settles O31: a step is stage 5 after a push, `step()` is a step or nothing, `prev()` replaces the other fields. -/
theorem configurationIsNeverWritten : Obligations.ConfigurationIsNeverWritten := by
  refine ⟨fun _ _ => step_cfg, fun s => ⟨?_, s.prev_cfg⟩, load_cfg⟩
  rcases stepCall_state s with h | h
  · exact step_cfg h
  · rw [h]

end Sys2Proof.Machine
end

section
/-! PROOF. Two machines run side by side: a relation that the operations of the state keep is kept by every instruction. The
statements on what no instruction reads (10_state.md R22, R27, R28) and on the address of a fault (R24, R113) follow from
it, each by its own relation. -/

namespace Sys2Proof.Machine

open Sys2Proof.Claims

/-- The faults stage 5 raises in configuration `c`, with the `fault_addr` each has (R113). -/
def StageFiveFault (c : Config) : FaultKind → Int → Prop
  | .invalidAddress, f => ∃ x : Word, f = x.toNat ∧ ¬ InText c x
  | .invalidOperand, f => f = 0
  | .segmentViolation, f => ¬ CanStore c f
  | .unsupportedOpcode, _ => False

/-- `R` relates machines that agree on what an instruction reads, and it is kept when both do the same write or raise the
same fault. -/
structure KeptByOps (R : State → State → Prop) : Prop where
  cfg {s u} : R s u → u.cfg = s.cfg
  regs {s u} : R s u → u.top.regs = s.top.regs
  mem {s u} : R s u → u.top.mem = s.top.mem
  zf {s u} : R s u → u.top.flags.zf = s.top.flags.zf
  setReg {s u} (r v) : R s u → R (s.setReg r v) (u.setReg r v)
  setZf {s u} (b) : R s u → R (s.setZf b) (u.setZf b)
  setCf {s u} (b) : R s u → R (s.setCf b) (u.setCf b)
  setOf {s u} (b) : R s u → R (s.setOf b) (u.setOf b)
  storeWord {s u} (a v) : R s u → R (s.storeWord a v) (u.storeWord a v)
  raise {s u k f} : R s u → StageFiveFault s.cfg k f → R (s.raise k f) (u.raise k f)

/-- Two runs that end the same way, in related states. -/
inductive Run.Related (R : State → State → Prop) : Run → Run → Prop where
  | ok {s u} : R s u → Run.Related R (.ok s) (.ok u)
  | error {s u} : R s u → Run.Related R (.error s) (.error u)

namespace Run.Related

variable {R : State → State → Prop} {x y : Run}

theorem bind {f g : State → Run} (h : Run.Related R x y) (hfg : ∀ {s u}, R s u → Run.Related R (f s) (g u)) :
    Run.Related R (x >>= f) (y >>= g) := by
  cases h with
  | ok h => exact hfg h
  | error h => exact .error h

theorem outcome {t : State} (h : Run.Related R x y) (hx : x.outcome = .next t) :
    ∃ v, y.outcome = .next v ∧ R t v := by
  cases h with
  | ok h => cases hx; exact ⟨_, rfl, h⟩
  | error h => cases hx; exact ⟨_, rfl, h⟩

end Run.Related

namespace KeptByOps

variable {R : State → State → Prop} (hR : KeptByOps R) {s u : State}
include hR

/-! ### What related machines read -/

theorem reg (h : R s u) (r : RegId) : u.reg r = s.reg r := by rw [State.reg, State.reg, hR.regs h]

theorem memRead (h : R s u) (a : Int) : u.memRead a = s.memRead a := by rw [State.memRead, State.memRead, hR.mem h]

theorem effAddr (h : R s u) (b : RegId) (neg : Bool) (d : Word) : u.effAddr b neg d = s.effAddr b neg d := by
  rw [State.effAddr, State.effAddr, hR.reg h]

theorem readOp (h : R s u) (op : Operand) : u.readOp op = s.readOp op := by
  cases op with
  | reg r => exact hR.reg h r
  | imm v => rfl
  | mem b neg d => rw [State.readOp_mem, State.readOp_mem, hR.effAddr h, hR.memRead h]

/-! ### The shared operations -/

theorem related_raise (h : R s u) {k : FaultKind} {f : Int} (hf : StageFiveFault s.cfg k f) :
    Run.Related R (.error (s.raise k f)) (.error (u.raise k f)) :=
  .error (hR.raise h hf)

theorem memWrite (h : R s u) (a : Int) (v : Word) : Run.Related R (s.memWrite a v) (u.memWrite a v) := by
  have hc := hR.cfg h
  cases hw : writableWord s.cfg a with
  | true =>
    rw [s.memWrite_ok v hw, u.memWrite_ok v (hc ▸ hw)]
    exact .ok (hR.storeWord a v h)
  | false =>
    have haddr : ¬ CanStore s.cfg a := fun hcan => by simp [writableWord_iff.2 hcan] at hw
    rw [s.memWrite_error v hw, u.memWrite_error v (hc ▸ hw)]
    exact hR.related_raise h haddr

theorem writeOp (h : R s u) (op : Operand) (v : Word) : Run.Related R (s.writeOp op v) (u.writeOp op v) := by
  cases op with
  | reg r => exact .ok (hR.setReg r v h)
  | imm w => exact hR.related_raise h rfl
  | mem b neg d =>
    rw [State.writeOp_mem, State.writeOp_mem, hR.effAddr h]
    exact hR.memWrite h _ v

theorem checkPair (h : R s u) (dst src : Operand) :
    Run.Related R (s.checkPair dst src false) (u.checkPair dst src false) := by
  cases hp : dst.pairOk src with
  | true => rw [s.checkPair_ok hp, u.checkPair_ok hp]; exact .ok h
  | false => rw [s.checkPair_error hp, u.checkPair_error hp]; exact hR.related_raise h rfl

theorem jump (h : R s u) (x : Word) : Run.Related R (s.jump x) (u.jump x) := by
  have hc := hR.cfg h
  cases ht : inText s.cfg x with
  | true =>
    rw [s.jump_ok ht, u.jump_ok (hc ▸ ht)]
    exact .ok (hR.setReg .ip x h)
  | false =>
    have haddr : ¬ InText s.cfg x := fun hin => by simp [inText_iff.2 hin] at ht
    rw [s.jump_error ht, u.jump_error (hc ▸ ht)]
    exact hR.related_raise h ⟨x, rfl, haddr⟩

theorem jumpTo (h : R s u) (target : Operand) : Run.Related R (s.jumpTo target) (u.jumpTo target) := by
  rw [State.jumpTo, State.jumpTo, hR.readOp h]
  exact hR.jump h _

theorem lowerSp (h : R s u) : R s.lowerSp u.lowerSp := by
  have hsp := hR.setReg .sp (sub16 (s.reg .sp) 2) h
  simp only [State.lowerSp, hR.reg h, hR.cfg h]
  split
  · exact hR.setZf _ hsp
  · exact hsp

theorem raiseSp (h : R s u) : R s.raiseSp u.raiseSp := by
  rw [State.raiseSp, State.raiseSp, hR.reg h]
  exact hR.setReg .sp _ h

theorem writeProduct (h : R s u) (p : Nat) : R (s.writeProduct p) (u.writeProduct p) :=
  hR.setOf _ (hR.setCf _ (hR.setReg .dx _ (hR.setReg .ax _ h)))

/-! ### The instructions -/

/-- An instruction executed by two related machines leaves related machines. -/
theorem related_exec {i : Instr} {t : State} (h : R s u) (hx : exec i s = .next t) :
    ∃ v, exec i u = .next v ∧ R t v := by
  cases i with
  | mov dst src =>
    refine ((hR.checkPair h dst src).bind fun h => ?_).outcome hx
    rw [hR.readOp h]
    exact hR.writeOp h dst _
  | add dst src =>
    refine ((hR.checkPair h dst src).bind fun h => ?_).outcome hx
    rw [hR.readOp h, hR.readOp h]
    exact hR.writeOp h dst _
  | sub dst src =>
    refine ((hR.checkPair h dst src).bind fun h => ?_).outcome hx
    rw [hR.readOp h, hR.readOp h]
    exact (hR.writeOp h dst _).bind fun h => .ok (hR.setZf _ h)
  | cmp dst src =>
    refine ((hR.checkPair h dst src).bind fun h => ?_).outcome hx
    rw [hR.readOp h, hR.readOp h]
    exact .ok (hR.setZf _ h)
  | jmp target => exact (hR.jumpTo h target).outcome hx
  | jne target =>
    refine Run.Related.outcome ?_ hx
    rw [hR.zf h]
    split
    · exact .ok h
    · exact hR.jumpTo h target
  | je target =>
    refine Run.Related.outcome ?_ hx
    rw [hR.zf h]
    split
    · exact hR.jumpTo h target
    · exact .ok h
  | push src =>
    have hl := hR.lowerSp h
    refine Run.Related.outcome ?_ hx
    rw [hR.reg hl, hR.readOp hl]
    exact hR.memWrite hl _ _
  | pop dst =>
    refine Run.Related.outcome ?_ hx
    split
    · exact hR.related_raise h rfl
    · rw [hR.reg h, hR.memRead h]
      exact (hR.writeOp h dst _).bind fun h => .ok (hR.raiseSp h)
  | call target =>
    have hl := hR.lowerSp h
    refine Run.Related.outcome ?_ hx
    rw [hR.reg hl, hR.reg hl]
    exact (hR.memWrite hl _ _).bind fun h => hR.jumpTo h target
  | ret =>
    refine Run.Related.outcome ?_ hx
    rw [hR.reg h, hR.memRead h]
    exact (hR.jump h _).bind fun h => .ok (hR.raiseSp h)
  | mul src =>
    refine Run.Related.outcome ?_ hx
    split
    · rw [hR.reg h, hR.readOp h]
      exact .ok (hR.writeProduct h _)
    · exact hR.related_raise h rfl
  | nop => exact Run.Related.outcome (.ok h) hx

end KeptByOps

/-! ## What no instruction reads -/

/-- Two machines that agree on everything but `cf` and `of`. -/
structure AgreeButCfOf (s u : State) : Prop where
  regs : u.top.regs = s.top.regs
  mem : u.top.mem = s.top.mem
  zf : u.top.flags.zf = s.top.flags.zf
  cfg : u.cfg = s.cfg
  below : u.below = s.below
  fault : u.fault = s.fault

theorem AgreeButCfOf.keptByOps : KeptByOps AgreeButCfOf where
  cfg h := h.cfg
  regs h := h.regs
  mem h := h.mem
  zf h := h.zf
  setReg r v h := { h with regs := by simp [h.regs] }
  setZf _ h := { h with zf := rfl }
  setCf _ h := { h with }
  setOf _ h := { h with }
  storeWord a v h := { h with mem := by simp [h.mem] }
  raise h _ := { h with fault := by simp [State.fetchAddress, h.regs] }

/-- Settles O25: a machine with other values of `cf` and `of` agrees on everything else, and every instruction keeps that. -/
theorem noInstructionReadsCfOrOf : Obligations.NoInstructionReadsCfOrOf := by
  intro i s t x y h
  have hstart : AgreeButCfOf s { s with top := { s.top with flags := { s.top.flags with cf := x, of := y } } } :=
    ⟨rfl, rfl, rfl, rfl, rfl, rfl⟩
  obtain ⟨u, hu, hregs, hmem, hzf, hcfg, hbelow, hfault⟩ := AgreeButCfOf.keptByOps.related_exec hstart h
  exact ⟨u, hu, hregs, hmem, hzf, hcfg, hbelow, hfault⟩

/-- Two machines with the same active snapshot and configuration: the first has the latch `f₀` and the second the history `b`
and the latch `f`, until both raise the same fault. -/
structure AgreeButHistory (f₀ : Option FaultRecord) (b : List Snapshot) (f : Option FaultRecord) (s u : State) : Prop where
  top : u.top = s.top
  cfg : u.cfg = s.cfg
  below : u.below = b
  fault : (s.fault = f₀ ∧ u.fault = f) ∨ u.fault = s.fault

theorem AgreeButHistory.keptByOps (f₀ : Option FaultRecord) (b : List Snapshot) (f : Option FaultRecord) :
    KeptByOps (AgreeButHistory f₀ b f) where
  cfg h := h.cfg
  regs h := by rw [h.top]
  mem h := by rw [h.top]
  zf h := by rw [h.top]
  setReg r v h := { h with top := by simp [State.setReg, h.top] }
  setZf c h := { h with top := by simp [State.setZf, h.top] }
  setCf c h := { h with top := by simp [State.setCf, h.top] }
  setOf c h := { h with top := by simp [State.setOf, h.top] }
  storeWord a v h := { h with top := by simp [State.storeWord, h.top] }
  raise h _ := { h with fault := .inr (by simp [State.fetchAddress, h.top]) }

/-- Settles O37: a handler reads neither, and a raise overwrites the latch on both sides with the same record. -/
theorem instructionsIgnoreHistoryAndLatch : Obligations.InstructionsIgnoreHistoryAndLatch := by
  intro i s t b f h
  have hstart : AgreeButHistory s.fault b f s { s with below := b, fault := f } := ⟨rfl, rfl, rfl, .inl ⟨rfl, rfl⟩⟩
  obtain ⟨u, hu, htop, hcfg, hbelow, hfault⟩ := (AgreeButHistory.keptByOps s.fault b f).related_exec hstart h
  exact ⟨u, hu, htop, hcfg, hbelow, hfault⟩

/-! ## The record of a fault -/

/-- A property of one machine, written as a relation on the diagonal: its configuration is `c`, and a latched record is one
that stage 5 makes. -/
structure RecordOfStageFive (c : Config) (s u : State) : Prop where
  same : u = s
  cfg : s.cfg = c
  record : ∀ r, s.fault = some r → StageFiveFault c r.kind r.faultAddr

theorem RecordOfStageFive.keptByOps (c : Config) : KeptByOps (RecordOfStageFive c) where
  cfg h := by rw [h.same]
  regs h := by rw [h.same]
  mem h := by rw [h.same]
  zf h := by rw [h.same]
  setReg r v h := { h with same := by rw [h.same] }
  setZf b h := { h with same := by rw [h.same] }
  setCf b h := { h with same := by rw [h.same] }
  setOf b h := { h with same := by rw [h.same] }
  storeWord a v h := { h with same := by rw [h.same] }
  raise h hf := ⟨by rw [h.same], h.cfg, by rintro r ⟨⟩; exact h.cfg ▸ hf⟩

/-- A fault that `exec` raises is one of stage 5's, at the address that failed. -/
theorem stageFiveFault_of_exec {i : Instr} {s t : State} {r : FaultRecord} (hs : s.fault = none)
    (h : exec i s = .next t) (hr : t.fault = some r) : StageFiveFault s.cfg r.kind r.faultAddr := by
  have hstart : RecordOfStageFive s.cfg s s := ⟨rfl, rfl, by simp [hs]⟩
  obtain ⟨_, _, ht⟩ := (RecordOfStageFive.keptByOps s.cfg).related_exec hstart h
  exact ht.record r hr

/-- The faults of stages 3 and 4, each with its address (R65, R79). -/
theorem fetchDecode_error_cases {c : Config} {a : Word} {k : FaultKind} {f : Int} (h : fetchDecode c a = .error (k, f)) :
    (k = .invalidAddress ∧ f = a.toNat ∧ fetchWord c a = none) ∨ (k = .unsupportedOpcode ∧ f = 0)
      ∨ (k = .invalidOperand ∧ f = 0) := by
  unfold fetchDecode at h
  split at h
  · next hw => cases h; exact .inl ⟨rfl, rfl, hw⟩
  · split at h <;> cases h
    · exact .inr (.inl ⟨rfl, rfl⟩)
    · exact .inr (.inr ⟨rfl, rfl⟩)

/-- How a step that runs answers: with the fault of its fetch or decode, or with what its instruction does (R79). -/
theorem step_fetchDecode_cases {s t : State} (h : step s = .next t) :
    (∃ k f, fetchDecode s.cfg s.top.regs.ip = .error (k, f) ∧ t = s.beginStep.raise k f)
      ∨ ∃ i, fetchDecode s.cfg s.top.regs.ip = .ok i ∧ exec i s.beginStep = .next t := by
  obtain ⟨hf, hh, -⟩ := step_cases h
  rw [step_running hf hh] at h
  cases hd : fetchDecode s.cfg s.top.regs.ip with
  | error e => rw [hd] at h; cases h; exact .inl ⟨_, _, rfl, rfl⟩
  | ok i => rw [hd] at h; exact .inr ⟨i, rfl, h⟩

/-- A record latched by a step that began with a clear latch names the fetch address (R24). -/
theorem step_faultIp {s t : State} {r : FaultRecord} (h : step s = .next t) (hr : t.fault = some r) :
    r.faultIp = s.top.regs.ip := by
  obtain ⟨hf, -, hfive⟩ := step_cases h
  rcases hfive.fault with hkept | ⟨k, f, hraised⟩
  · simp [hkept, hf] at hr
  · rw [hraised] at hr
    cases hr
    exact s.beginStep_fetchAddress

/-- Settles O33: the record is that of the fetch, of the decoder, or one of stage 5's. -/
theorem faultRecordSaysWhatFailed : Obligations.FaultRecordSaysWhatFailed := by
  intro s t r h hr
  refine ⟨step_faultIp h hr, ?_⟩
  rcases step_fetchDecode_cases h with ⟨k, f, hd, rfl⟩ | ⟨i, -, hexec⟩
  · cases hr
    rcases fetchDecode_error_cases hd with ⟨rfl, rfl, hw⟩ | ⟨rfl, rfl⟩ | ⟨rfl, rfl⟩
    · have houtside := fetchWord_eq_none_iff.1 hw
      exact ⟨by simp, by simp, by simp, fun _ => .inl ⟨rfl, houtside⟩⟩
    · simp
    · simp
  · obtain ⟨hf, -, -⟩ := step_cases h
    have haddr : StageFiveFault s.cfg r.kind r.faultAddr := stageFiveFault_of_exec (s := s.beginStep) hf hexec hr
    refine ⟨?_, ?_, ?_, ?_⟩ <;> intro hk <;> rw [hk] at haddr
    · exact haddr
    · exact haddr.elim
    · exact haddr
    · exact .inr haddr

end Sys2Proof.Machine
end

section
/-! PROOF. The flags of an instruction that completes (10_state.md R21). Each handler has a postcondition for the run that
completes; a run that raises ends with the latch set. -/

namespace Sys2Proof.Machine

/-- The run completes in a state with `P`, or it ends in a fault with the latch set. -/
def Run.Completes (P : State → Prop) : Run → Prop
  | .ok u => P u
  | .error u => u.fault ≠ none

namespace Run.Completes

variable {P Q : State → Prop} {x : Run}

theorem raise (u : State) (k : FaultKind) (f : Int) : Run.Completes P (.error (u.raise k f)) := by
  simp [Run.Completes]

theorem bind {f : State → Run} (hx : x.Completes P) (hf : ∀ u, P u → (f u).Completes Q) :
    Run.Completes Q (x >>= f) := by
  cases x with
  | ok u => exact hf u hx
  | error u => exact hx

theorem mono (hx : x.Completes P) (hPQ : ∀ u, P u → Q u) : x.Completes Q := by
  cases x with
  | ok u => exact hPQ u hx
  | error u => exact hx

/-- A handler that leaves the latch clear has completed. -/
theorem of_outcome {t : State} (hx : x.Completes P) (h : x.outcome = .next t) (ht : t.fault = none) : P t := by
  cases x with
  | ok u => cases h; exact hx
  | error u => cases h; exact absurd ht hx

end Run.Completes

/-! ## The table of R21 -/

/-- No flag is written. -/
def FlagsKept (s t : State) : Prop := t.top.flags = s.top.flags

/-- `sub` and `cmp`: `zf` alone, of the difference of the operands. -/
def ZfOfDifference (dst src : Operand) (s t : State) : Prop :=
  t.top.flags = { s.top.flags with zf := decide (s.readOp dst - s.readOp src = 0) }

/-- `mul`: `cf` and `of` alone, of the new `dx`. -/
def WideFlagsOfDx (s t : State) : Prop :=
  t.top.flags = { s.top.flags with cf := decide (t.top.regs.dx ≠ 0), of := decide (t.top.regs.dx ≠ 0) }

/-- `push` and `call`: with `PUSH_SETS_ZF`, `zf` of the new `sp`. -/
def ZfOfSp (s t : State) : Prop :=
  t.top.flags = { s.top.flags with zf := if s.cfg.pushSetsZf then decide (t.top.regs.sp = 0) else s.top.flags.zf }

/-! ## The shared operations, where they complete -/

theorem State.memWrite_completes (s : State) (a : Int) (v : Word) :
    (s.memWrite a v).Completes (· = s.storeWord a v) := by
  cases h : writableWord s.cfg a with
  | true => rw [s.memWrite_ok v h]; rfl
  | false => rw [s.memWrite_error v h]; exact .raise _ _ _

theorem State.checkPair_completes (s : State) (dst src : Operand) :
    (s.checkPair dst src false).Completes (· = s) := by
  cases h : dst.pairOk src with
  | true => rw [s.checkPair_ok h]; rfl
  | false => rw [s.checkPair_error h]; exact .raise _ _ _

theorem State.jump_completes (s : State) (x : Word) : (s.jump x).Completes (· = s.setReg .ip x) := by
  cases h : inText s.cfg x with
  | true => rw [s.jump_ok h]; rfl
  | false => rw [s.jump_error h]; exact .raise _ _ _

/-- The operand-pair check in front of a handler changes nothing where it passes. -/
theorem Run.Completes.after_checkPair {P : State → Prop} {s : State} {k : State → Run} (dst src : Operand)
    (h : (k s).Completes P) : Run.Completes P (s.checkPair dst src false >>= k) :=
  (s.checkPair_completes dst src).bind fun _ hu => hu ▸ h

/-! ## Flags -/

theorem zeroFlag_eq (r : Word) : zeroFlag r = decide (r = 0) := rfl

theorem State.writeOp_flagsKept (s : State) (op : Operand) (v : Word) :
    (s.writeOp op v).Completes (FlagsKept s) := by
  cases op with
  | reg r => exact s.setReg_flags r v
  | imm w => exact .raise _ _ _
  | mem b neg d => exact (s.memWrite_completes _ v).mono fun u hu => hu ▸ s.storeWord_flags _ v

theorem State.jump_flagsKept (s : State) (x : Word) : (s.jump x).Completes (FlagsKept s) :=
  (s.jump_completes x).mono fun _ hu => hu ▸ s.setReg_flags .ip x

theorem State.jumpTo_flagsKept (s : State) (target : Operand) : (s.jumpTo target).Completes (FlagsKept s) :=
  s.jump_flagsKept _

/-- The `sub sp,2` of `push` and `call` (R98). -/
theorem State.lowerSp_zfOfSp (s : State) : ZfOfSp s s.lowerSp := by
  rw [ZfOfSp, s.lowerSp_flags, s.lowerSp_regs]
  split <;> rfl

/-- `wideFlag` of the product's high half, which is the new `dx` (R92). -/
theorem State.writeProduct_wideFlagsOfDx (s : State) (p : Nat) : WideFlagsOfDx s (s.writeProduct p) := by
  have hdx : (s.writeProduct p).top.regs.dx = productHigh p := rfl
  have hwide : wideFlag (productHigh p) = decide (productHigh p ≠ 0) := by simp [wideFlag, bne, beq_eq_decide]
  rw [WideFlagsOfDx, hdx, ← hwide]
  rfl

/-- `zf` of a difference, written last by `sub` and `cmp`. -/
theorem State.setZf_zfOfDifference {s u : State} (dst src : Operand) (h : FlagsKept s u) :
    ZfOfDifference dst src s (u.setZf (zeroFlag (sub16 (s.readOp dst) (s.readOp src)))) := by
  rw [ZfOfDifference, State.setZf_flags, h, zeroFlag_eq, sub16_eq]

/-- Settles O24, instruction by instruction: flags are written by the statements of R21 alone. -/
theorem flagsAreWrittenOnlyAsTabled : Obligations.FlagsAreWrittenOnlyAsTabled := by
  intro i s t _ h ht
  cases i with
  | mov dst src =>
    refine Run.Completes.of_outcome (P := FlagsKept s) ?_ h ht
    exact .after_checkPair dst src (s.writeOp_flagsKept dst _)
  | add dst src =>
    refine Run.Completes.of_outcome (P := FlagsKept s) ?_ h ht
    exact .after_checkPair dst src (s.writeOp_flagsKept dst _)
  | sub dst src =>
    refine Run.Completes.of_outcome (P := ZfOfDifference dst src s) ?_ h ht
    exact .after_checkPair dst src
      ((s.writeOp_flagsKept dst _).bind fun _ hu => State.setZf_zfOfDifference dst src hu)
  | cmp dst src =>
    refine Run.Completes.of_outcome (P := ZfOfDifference dst src s) ?_ h ht
    exact .after_checkPair dst src (State.setZf_zfOfDifference dst src rfl)
  | jmp target => exact (s.jumpTo_flagsKept target).of_outcome h ht
  | jne target =>
    refine Run.Completes.of_outcome (P := FlagsKept s) ?_ h ht
    split
    · exact rfl
    · exact s.jumpTo_flagsKept target
  | je target =>
    refine Run.Completes.of_outcome (P := FlagsKept s) ?_ h ht
    split
    · exact s.jumpTo_flagsKept target
    · exact rfl
  | push src =>
    obtain rfl := (s.lowerSp.memWrite_completes _ _).of_outcome h ht
    exact s.lowerSp_zfOfSp
  | pop dst =>
    refine Run.Completes.of_outcome (P := FlagsKept s) ?_ h ht
    split
    · exact .raise _ _ _
    · exact (s.writeOp_flagsKept dst _).bind fun _ hu => hu
  | call target =>
    refine Run.Completes.of_outcome (P := ZfOfSp s) ?_ h ht
    refine (s.lowerSp.memWrite_completes _ _).bind fun u hu => ?_
    subst hu
    exact (State.jump_completes _ _).mono fun _ ht => ht ▸ s.lowerSp_zfOfSp
  | ret =>
    refine Run.Completes.of_outcome (P := FlagsKept s) ?_ h ht
    exact (s.jump_flagsKept _).bind fun _ hu => hu
  | mul src =>
    refine Run.Completes.of_outcome (P := WideFlagsOfDx s) ?_ h ht
    split
    · exact s.writeProduct_wideFlagsOfDx _
    · exact .raise _ _ _
  | nop => cases h; rfl

end Sys2Proof.Machine
end

section
/-! PROOF. Byte memory and what reads and writes it (20_memory.md): a canonical memory is determined by what it reads,
effective addresses, operand reads, the checked store, and what a step leaves of memory and of the invariant. -/

namespace Sys2Proof.Machine

open Sys2Proof.Claims

/-! ## The invariant -/

/-- A step that ran found room in a bounded history (R107). -/
theorem depth_lt_of_not_historyFull {s : State} {m : Nat} (hfull : s.historyFull = false)
    (hm : s.cfg.maxHistory = some m) (hle : s.depth ≤ m) : s.depth < m := by
  have hne : s.depth ≠ m := fun h => by simp [historyFull_iff.2 (h ▸ hm)] at hfull
  omega

/-- Stage 5 stores at most one word, which keeps the canonical form. -/
theorem StageFive.wf_mem {s t : State} (h : StageFive s t) (hwf : s.top.mem.wf) : t.top.mem.wf := by
  rcases h.mem with hmem | ⟨a, v, -, hmem⟩ <;> rw [hmem]
  · exact hwf
  · exact s.top.mem.wf_writeWord a v hwf

/-- Settles O39: the entry pushed is the old active snapshot, so it is canonical, makes the history longer than one entry,
and fits because the step found the history not full. -/
theorem stepKeepsTheInvariant : Obligations.StepKeepsTheInvariant := by
  intro s t ⟨htop, hbelow, hlatch, hbound⟩ h
  obtain ⟨-, hfull, hfive⟩ := step_cases h
  obtain ⟨hpushed, hdepth⟩ := stepAddsOneHistoryEntry s t h
  refine ⟨hfive.wf_mem htop, ?_, fun _ => ?_, fun m hm => ?_⟩
  · rw [hpushed]
    exact List.forall_mem_cons.2 ⟨htop, hbelow⟩
  · rw [hdepth]
    exact Nat.succ_lt_succ s.below.length.succ_pos
  · rw [step_cfg h] at hm
    rw [hdepth]
    exact depth_lt_of_not_historyFull hfull hm (hbound m hm)

/-! ## The checked store -/

@[simp] theorem toNat_lowByte (v : Word) : (lowByte v).toNat = v.toNat % 0x100 := BitVec.toNat_ofNat ..

@[simp] theorem toNat_highByte (v : Word) : (highByte v).toNat = v.toNat / 0x100 := by
  have hv := v.isLt
  rw [highByte, BitVec.toNat_ofNat]
  omega

/-- The two byte writes of a store put the word at its address, little-endian (R41). -/
theorem State.stored_storeWord (s : State) (a : Int) (v : Word) (h : s.top.mem.wf) : Stored a v s (s.storeWord a v) := by
  rw [Stored, State.storeWord_mem, Memory.read_writeWord_low _ a v h, Memory.read_writeWord_high _ a v h]
  exact ⟨toNat_lowByte v, toNat_highByte v, fun b => s.top.mem.read_writeWord_of_ne v⟩

theorem writableWord_eq_true_iff {c : Config} {a : Int} : writableWord c a = true ↔ CanStore c a := writableWord_iff

theorem writableWord_eq_false_iff {c : Config} {a : Int} : writableWord c a = false ↔ ¬ CanStore c a := by
  rw [← writableWord_eq_true_iff, Bool.not_eq_true]

/-- Settles O8: the check comes before the first of the two byte writes. -/
theorem checkedStoreWritesBothBytesOrNeither : Obligations.CheckedStoreWritesBothBytesOrNeither := by
  refine fun s a v => ⟨fun hrefused => ?_, fun hopen hwf => ?_⟩
  · rw [s.memWrite_error v (writableWord_eq_false_iff.2 hrefused), State.raise, s.fetchAddress_eq]
  · have hok := s.memWrite_ok v (writableWord_eq_true_iff.2 hopen)
    exact ⟨s.storeWord a v, hok, ⟨rfl, rfl, rfl⟩, rfl, rfl, s.stored_storeWord a v hwf⟩

/-! ## Canonical memories -/

/-- The entries of a canonical list are the keys that read as something else than the unlisted byte, each with its byte. -/
theorem mem_iff_readCells {l : List Host.Cell} (h : cellsWf l) (n : Nat) (b : Byte) :
    (n, b) ∈ l ↔ readCells l n = b ∧ b ≠ unlistedByte := by
  induction l with
  | nil => simp [readCells, eq_comm]
  | cons c rest ih =>
    obtain ⟨k, b'⟩ := c
    have hb' : b' ≠ unlistedByte := h.2 (k, b') List.mem_cons_self
    by_cases hk : k = n
    · subst hk
      have hrest : (k, b) ∉ rest := fun hmem => Nat.lt_irrefl k ((List.pairwise_cons.1 h.1).1 _ hmem)
      simp only [List.mem_cons, hrest, readCells, if_true, Prod.mk.injEq, true_and, or_false]
      exact ⟨fun hb => ⟨hb.symm, hb ▸ hb'⟩, fun hb => hb.1.symm⟩
    · simp [readCells, hk, Ne.symm hk, ih (cellsWf_tail h)]

/-- Two canonical lists that read alike have the same entries, in the same strictly rising order. -/
theorem cells_ext {l l' : List Host.Cell} (h : cellsWf l) (h' : cellsWf l')
    (hread : ∀ n, readCells l n = readCells l' n) : l = l' := by
  have hasymm : Std.Asymm fun x y : Host.Cell => x.1 < y.1 := ⟨fun _ _ => Nat.lt_asymm⟩
  refine h.1.eq_of_mem_iff h'.1 fun ⟨n, b⟩ => ?_
  rw [mem_iff_readCells h, mem_iff_readCells h', hread]

/-- Settles O9: the addresses from 0 up are the keys of one list, those below 0 of the other. -/
theorem canonicalMemoriesAreExtensional : Obligations.CanonicalMemoriesAreExtensional := by
  intro ⟨l, k⟩ ⟨l', k'⟩ ⟨hl, hk⟩ ⟨hl', hk'⟩ hread
  obtain rfl : l = l' := cells_ext hl hl' fun n => hread (.ofNat n)
  obtain rfl : k = k' := cells_ext hk hk' fun n => hread (.negSucc n)
  rfl

/-! ## What a step leaves of memory -/

/-- A word the write check accepts has its bytes in the stack segment, or the high one at `STACK_HI` where the check does
not cover it (R37). -/
theorem CanStore.ne_of_outside {c : Config} {e a : Int} (h : CanStore c e) (hout : a < c.stackLo ∨ c.stackHi ≤ a)
    (hhigh : c.checkHighByte = false → a ≠ c.stackHi) : a ≠ e ∧ a ≠ e + 1 := by
  obtain ⟨hlo, hhi, hnext⟩ := h
  cases hc : c.checkHighByte with
  | true =>
    have hnext := hnext hc
    omega
  | false =>
    have hhigh := hhigh hc
    omega

/-- Settles O32: the one word a step may store is one the write check accepts. -/
theorem stepChangesMemoryOnlyInTheStackSegment : Obligations.StepChangesMemoryOnlyInTheStackSegment := by
  intro s t h a hout hhigh
  obtain ⟨-, -, hfive⟩ := step_cases h
  rcases hfive.mem with hmem | ⟨e, v, hopen, hmem⟩ <;> rw [hmem]
  · rfl
  · obtain ⟨hlow, hnext⟩ := CanStore.ne_of_outside (writableWord_eq_true_iff.1 hopen) hout hhigh
    exact s.top.mem.read_writeWord_of_ne v hlow hnext

/-! ## Operands -/

theorem State.effAddr_eq (s : State) (b : RegId) (neg : Bool) (d : Word) : s.effAddr b neg d =
    if neg then ((s.top.regs.get b).toNat : Int) - d.toNat else (s.top.regs.get b).toNat + d.toNat := rfl

/-- Settles O6: both signs, from two 16-bit values and no truncation. -/
theorem effectiveAddressIsUntruncated : Obligations.EffectiveAddressIsUntruncated := by
  intro s b neg d
  have hbase := (s.top.regs.get b).isLt
  have hdisp := d.isLt
  have hzero : (0 : Word).toNat = 0 := rfl
  refine ⟨s.effAddr_eq b neg d, ?_⟩
  rw [s.effAddr_eq, s.effAddr_eq, hzero]
  cases neg with
  | false => simp only [Bool.false_eq_true, if_false]; omega
  | true => simp only [if_true]; omega

/-- Settles O7: the case of a memory operand is `MemRead` at the effective address. -/
theorem operandReadIsRegisterImmediateOrWord : Obligations.OperandReadIsRegisterImmediateOrWord :=
  fun s => ⟨fun _ => rfl, fun _ => rfl, fun b neg d => s.top.mem.toNat_readWord (s.effAddr b neg d)⟩

end Sys2Proof.Machine
end

section
/-! PROOF. The encoding (30_encoding.md R58 to R68): decode inverts encode, encode inverts decode on the words decode accepts,
and the words it refuses are those of the table of R66. -/

namespace Sys2Proof

open Sys2Proof.Machine Sys2Proof.Claims

/-! ## Decode inverts encode -/

theorem decodeOne_encodeSlot (mk : Operand → Instr) (op : Operand) : decodeOne mk (encodeSlot op) 0 = .ok (mk op) := by
  simp [decodeOne, decodeSlot_encodeSlot]

theorem decodeTwo_encodeSlot (mk : Operand → Operand → Instr) (dst src : Operand) :
    decodeTwo mk (encodeSlot dst) (encodeSlot src) = .ok (mk dst src) := by
  simp [decodeTwo, decodeSlot_encodeSlot]

/-- Where opcode `opc` takes one operand and builds `mk`, the word `encodeOne` packs decodes to it. -/
theorem decode_encodeOne {opc : Nat} {mk : Operand → Instr} (hopc : opc < 13) (hnops : 1 = nopsOf opc)
    (hmk : decodeOperands opc = decodeOne mk) (op : Operand) : decode (encodeOne opc op) = .ok (mk op) := by
  rw [encodeOne, decode_packWord _ _ hopc hnops, hmk, decodeOne_encodeSlot]

/-- Where opcode `opc` takes two operands and builds `mk`, the word `encodeTwo` packs decodes to it. -/
theorem decode_encodeTwo {opc : Nat} {mk : Operand → Operand → Instr} (hopc : opc < 13) (hnops : 2 = nopsOf opc)
    (hmk : decodeOperands opc = decodeTwo mk) (dst src : Operand) :
    decode (encodeTwo opc dst src) = .ok (mk dst src) := by
  rw [encodeTwo, decode_packWord _ _ hopc hnops, hmk, decodeTwo_encodeSlot]

theorem decode_encode (i : Instr) : decode (encode i) = .ok i := by
  cases i with
  | mov dst src => exact decode_encodeTwo (by decide) rfl rfl dst src
  | add dst src => exact decode_encodeTwo (by decide) rfl rfl dst src
  | sub dst src => exact decode_encodeTwo (by decide) rfl rfl dst src
  | cmp dst src => exact decode_encodeTwo (by decide) rfl rfl dst src
  | jmp target => exact decode_encodeOne (by decide) rfl rfl target
  | jne target => exact decode_encodeOne (by decide) rfl rfl target
  | je target => exact decode_encodeOne (by decide) rfl rfl target
  | push src => exact decode_encodeOne (by decide) rfl rfl src
  | pop dst => exact decode_encodeOne (by decide) rfl rfl dst
  | call target => exact decode_encodeOne (by decide) rfl rfl target
  | ret => decide
  | mul src => exact decode_encodeOne (by decide) rfl rfl src
  | nop => decide

/-- Settles O1, instruction by instruction: the fields of the packed word and of its packed slots are read back. -/
theorem decodeOfEncodeGivesTheInstruction : Obligations.DecodeOfEncodeGivesTheInstruction := decode_encode

/-- A word that an instruction encodes to also decodes to it. -/
theorem worked_of_encode {w : InstrWord} {i : Instr} (h : encode i = w) : decode w = .ok i ∧ encode i = w :=
  ⟨h ▸ decode_encode i, h⟩

/-- Settles O4: encoding is evaluated, and decoding is its inverse. -/
theorem workedEncodingsDecode : Obligations.WorkedEncodingsDecode := by
  refine ⟨?_, ?_, ?_, ?_, ?_, ?_, ?_, ?_⟩ <;> exact worked_of_encode (by decide)

/-! ## Encode inverts decode -/

/-- A slot without `RSV1` is packed from its fields (R59). -/
theorem packSlot_fields {s : Slot} (h : rsv1Field s = 0) :
    packSlot (kindField s) (negField s) (regField s) (valField s) = s := by
  have hs := s.isLt
  apply BitVec.eq_of_toNat_eq
  simp only [packSlot, kindField, negField, regField, rsv1Field, valField, field, BitVec.toNat_ofNat] at *
  omega

/-- A word without `RSV0` is packed from its fields (R58). -/
theorem packWord_fields {w : InstrWord} (h : rsv0Field w = 0) :
    packWord (opcField w) (nopsField w) (slot0Field w) (slot1Field w) = w := by
  have hw := w.isLt
  apply BitVec.eq_of_toNat_eq
  simp only [packWord, opcField, nopsField, rsv0Field, slot0Field, slot1Field, field, BitVec.toNat_ofNat] at *
  omega

theorem id_of_regOfId {n : Nat} {r : RegId} (h : regOfId n = some r) : r.id = n := by
  unfold regOfId at h
  split at h <;> cases h <;> rfl

/-- A slot that decodes is the slot of its operand. -/
theorem encodeSlot_of_decodeSlot {s : Slot} {op : Operand} (h : decodeSlot s = some op) : encodeSlot op = s := by
  unfold decodeSlot at h
  split at h
  · cases h
  next hrsv =>
  have hpack := packSlot_fields (s := s) (by simpa using hrsv)
  have hneg : negField s < 2 := Nat.mod_lt _ (by decide)
  split at h
  case h_1 hkind =>
    split at h
    · cases h
    next hzero =>
    obtain ⟨r, hr, rfl⟩ := Option.map_eq_some_iff.1 h
    simp_all [encodeSlot, id_of_regOfId hr]
  case h_2 hkind =>
    split at h
    · cases h
    next hzero =>
    cases h
    simp_all [encodeSlot]
  case h_3 hkind =>
    obtain ⟨b, hb, rfl⟩ := Option.map_eq_some_iff.1 h
    have hsign : (negField s != 0).toNat = negField s := by
      rcases Nat.le_one_iff_eq_zero_or_eq_one.1 (Nat.le_of_lt_succ hneg) with hn | hn <;> simp [hn]
    rw [encodeSlot, id_of_regOfId hb, hsign, ← hkind, hpack]
  case h_4 => cases h

/-- The three shapes of opcode: how many operands it takes, what decode builds from them, and what that encodes to (R60). -/
inductive OpcodeShape (opc : Nat) : Prop where
  | none (i : Instr) (nops : nopsOf opc = 0) (decodes : decodeOperands opc = decodeNone i)
      (encodes : encode i = packWord opc 0 0 0)
  | one (mk : Operand → Instr) (nops : nopsOf opc = 1) (decodes : decodeOperands opc = decodeOne mk)
      (encodes : ∀ op, encode (mk op) = encodeOne opc op)
  | two (mk : Operand → Operand → Instr) (nops : nopsOf opc = 2) (decodes : decodeOperands opc = decodeTwo mk)
      (encodes : ∀ dst src, encode (mk dst src) = encodeTwo opc dst src)

/-- The table of R60, read off decode and encode at once. -/
theorem opcodeShape : ∀ {opc : Nat}, opc < 13 → OpcodeShape opc
  | 0, _ => .two .mov rfl rfl fun _ _ => rfl
  | 1, _ => .two .add rfl rfl fun _ _ => rfl
  | 2, _ => .two .sub rfl rfl fun _ _ => rfl
  | 3, _ => .two .cmp rfl rfl fun _ _ => rfl
  | 4, _ => .one .jmp rfl rfl fun _ => rfl
  | 5, _ => .one .jne rfl rfl fun _ => rfl
  | 6, _ => .one .je rfl rfl fun _ => rfl
  | 7, _ => .one .push rfl rfl fun _ => rfl
  | 8, _ => .one .pop rfl rfl fun _ => rfl
  | 9, _ => .one .call rfl rfl fun _ => rfl
  | 10, _ => .none .ret rfl rfl rfl
  | 11, _ => .one .mul rfl rfl fun _ => rfl
  | 12, _ => .none .nop rfl rfl rfl
  | _ + 13, h => absurd h (by omega)

theorem decodeNone_eq_ok {i j : Instr} {s0 s1 : Slot} (h : decodeNone i s0 s1 = .ok j) : i = j ∧ s0 = 0 ∧ s1 = 0 := by
  unfold decodeNone at h
  split at h
  · cases h
  · cases h; simp_all

theorem decodeOne_eq_ok {mk : Operand → Instr} {i : Instr} {s0 s1 : Slot} (h : decodeOne mk s0 s1 = .ok i) :
    ∃ op, mk op = i ∧ encodeSlot op = s0 ∧ s1 = 0 := by
  unfold decodeOne at h
  split at h
  · cases h
  next hs1 =>
  split at h
  case h_1 op hop => cases h; exact ⟨op, rfl, encodeSlot_of_decodeSlot hop, by simpa using hs1⟩
  case h_2 => cases h

theorem decodeTwo_eq_ok {mk : Operand → Operand → Instr} {i : Instr} {s0 s1 : Slot} (h : decodeTwo mk s0 s1 = .ok i) :
    ∃ dst src, mk dst src = i ∧ encodeSlot dst = s0 ∧ encodeSlot src = s1 := by
  unfold decodeTwo at h
  split at h
  case h_1 dst src hdst hsrc =>
    cases h
    exact ⟨dst, src, rfl, encodeSlot_of_decodeSlot hdst, encodeSlot_of_decodeSlot hsrc⟩
  case h_2 => cases h

/-- A word that decodes has passed the checks of R65 before its slots are read. -/
theorem decode_eq_ok {w : InstrWord} {i : Instr} (h : decode w = .ok i) : opcField w < 13 ∧ rsv0Field w = 0
    ∧ nopsField w = nopsOf (opcField w) ∧ decodeOperands (opcField w) (slot0Field w) (slot1Field w) = .ok i := by
  unfold decode at h
  split at h
  · cases h
  next hsupported =>
  split at h
  · cases h
  next hnops =>
  simp only [Bool.or_eq_true, decide_eq_true_eq, not_or, Nat.not_le, bne_iff_ne, not_not] at hsupported hnops
  exact ⟨hsupported.1, hsupported.2, hnops, h⟩

/-- A word that decodes is the word of its instruction. -/
theorem encode_of_decode {w : InstrWord} {i : Instr} (h : decode w = .ok i) : encode i = w := by
  obtain ⟨hopc, hrsv, hnops, hops⟩ := decode_eq_ok h
  rw [← packWord_fields hrsv, hnops]
  cases opcodeShape hopc with
  | none j nops decodes encodes =>
    rw [decodes] at hops
    obtain ⟨rfl, hs0, hs1⟩ := decodeNone_eq_ok hops
    rw [encodes, nops, hs0, hs1]
  | one mk nops decodes encodes =>
    rw [decodes] at hops
    obtain ⟨op, rfl, hs0, hs1⟩ := decodeOne_eq_ok hops
    rw [encodes, nops, encodeOne, hs0, hs1]
  | two mk nops decodes encodes =>
    rw [decodes] at hops
    obtain ⟨dst, src, rfl, hs0, hs1⟩ := decodeTwo_eq_ok hops
    rw [encodes, nops, encodeTwo, hs0, hs1]

theorem encodeSlot_injective : Function.Injective encodeSlot := fun op op' h => by
  simpa [decodeSlot_encodeSlot] using congrArg decodeSlot h

/-- Settles O2: the accepted word of an instruction is its encoding. -/
theorem everyInstructionHasOneAcceptedWord : Obligations.EveryInstructionHasOneAcceptedWord := by
  refine ⟨fun w w' i h h' => ?_, fun i => ⟨encode i, decode_encode i, fun w' h' => ?_⟩, fun s b => ?_, fun b h => ?_⟩
  · exact (encode_of_decode h).symm.trans (encode_of_decode h')
  · exact (encode_of_decode h').symm
  · simp [State.effAddr]
  · simpa using encodeSlot_injective h

/-! ## The words decode refuses -/

theorem unsupportedWord_iff {w : InstrWord} : UnsupportedWord w ↔ 13 ≤ opcField w ∨ rsv0Field w ≠ 0 := by
  have hw := w.isLt
  simp only [UnsupportedWord, opcField, rsv0Field, field]
  omega

theorem decode_of_unsupportedWord {w : InstrWord} (h : UnsupportedWord w) : decode w = .error .unsupportedOpcode := by
  have hfields := unsupportedWord_iff.1 h
  simp [decode, hfields]

theorem regOfId_eq_none_iff {n : Nat} : regOfId n = none ↔ 9 ≤ n := by
  rcases Nat.lt_or_ge n 9 with h | h
  · interval_cases n <;> decide
  · obtain ⟨m, rfl⟩ := Nat.exists_eq_add_of_le' h
    simp [regOfId]

/-- `BadSlot` by the fields of R59. -/
theorem badSlot_iff_fields {s : Slot} : BadSlot s.toNat ↔ kindField s = 3 ∨ rsv1Field s ≠ 0
    ∨ ((kindField s = 0 ∨ kindField s = 2) ∧ 9 ≤ regField s)
    ∨ (kindField s = 0 ∧ (negField s ≠ 0 ∨ valField s ≠ 0))
    ∨ (kindField s = 1 ∧ (negField s ≠ 0 ∨ regField s ≠ 0)) := by
  have hs := s.isLt
  have hval : valField s ≠ 0 ↔ s.toNat % 2 ^ 16 ≠ 0 := by
    rw [Ne, ← BitVec.toNat_inj]
    simp [valField, field]
  have hkind : kindField s = s.toNat / 2 ^ 22 := by simp only [kindField, field]; omega
  rw [hval, hkind]
  rfl

/-- The illegal slots are those decode refuses. -/
theorem decodeSlot_eq_none_iff {s : Slot} : decodeSlot s = none ↔ BadSlot s.toNat := by
  rw [badSlot_iff_fields]
  have hkind : kindField s < 4 := Nat.mod_lt _ (by decide)
  unfold decodeSlot
  split
  · next hrsv => simp_all
  next hrsv =>
  split
  case h_1 hk => split <;> simp_all [regOfId_eq_none_iff]
  case h_2 hk => split <;> simp_all
  case h_3 hk => simp_all [regOfId_eq_none_iff]
  case h_4 h0 h1 h2 =>
    have hne : kindField s ≠ 0 ∧ kindField s ≠ 1 ∧ kindField s ≠ 2 := ⟨h0, h1, h2⟩
    have hthree : kindField s = 3 := by omega
    simp [hthree]

/-- InvalidOperand exactly where `bad` holds, and an instruction elsewhere. -/
def RefusedIff (bad : Prop) (r : Except DecodeError Instr) : Prop :=
  (bad → r = .error .invalidOperand) ∧ (¬ bad → ∃ i, r = .ok i)

theorem refusedIff_decodeNone (i : Instr) (s0 s1 : Slot) : RefusedIff (s0 ≠ 0 ∨ s1 ≠ 0) (decodeNone i s0 s1) := by
  unfold decodeNone RefusedIff
  split <;> simp_all

theorem refusedIff_decodeOne (mk : Operand → Instr) (s0 s1 : Slot) :
    RefusedIff (BadSlot s0.toNat ∨ s1 ≠ 0) (decodeOne mk s0 s1) := by
  rw [← decodeSlot_eq_none_iff]
  unfold decodeOne RefusedIff
  cases decodeSlot s0 <;> split <;> simp_all

theorem refusedIff_decodeTwo (mk : Operand → Operand → Instr) (s0 s1 : Slot) :
    RefusedIff (BadSlot s0.toNat ∨ BadSlot s1.toNat) (decodeTwo mk s0 s1) := by
  rw [← decodeSlot_eq_none_iff, ← decodeSlot_eq_none_iff]
  unfold decodeTwo RefusedIff
  cases decodeSlot s0 <;> cases decodeSlot s1 <;> simp

/-- The operand counts as R66's row has them. -/
theorem nopsOf_eq : ∀ opc < 13, nopsOf opc = if opc ≤ 3 then 2 else if opc = 10 ∨ opc = 12 then 0 else 1 := by decide

/-- `BadOperandsWord` by the fields of R58. -/
theorem badOperandsWord_iff {w : InstrWord} (h : opcField w < 13) : BadOperandsWord w ↔
    nopsField w ≠ nopsOf (opcField w) ∨ (nopsField w = 0 ∧ (slot0Field w ≠ 0 ∨ slot1Field w ≠ 0))
    ∨ (nopsField w = 1 ∧ (BadSlot (slot0Field w).toNat ∨ slot1Field w ≠ 0))
    ∨ (nopsField w = 2 ∧ (BadSlot (slot0Field w).toNat ∨ BadSlot (slot1Field w).toNat)) := by
  have hw := w.isLt
  have hopc : w.toNat / 2 ^ 60 = opcField w := by simp only [opcField, field]; omega
  have hslot0 : w.toNat / 2 ^ 24 % 2 ^ 24 = (slot0Field w).toNat := by
    simp only [slot0Field, field, BitVec.toNat_ofNat]; omega
  have hslot1 : w.toNat % 2 ^ 24 = (slot1Field w).toNat := by
    simp only [slot1Field, field, BitVec.toNat_ofNat]; omega
  have hzero : ∀ s : Slot, s.toNat ≠ 0 ↔ s ≠ 0 := fun s => by rw [Ne, Ne, ← BitVec.toNat_inj]; rfl
  simp only [BadOperandsWord, hopc, hslot0, hslot1, hzero, nopsOf_eq _ h]
  rfl

/-- Of the words with a supported opcode, decode refuses those of the other rows of R66. -/
theorem refusedIff_decode {w : InstrWord} (h : ¬ UnsupportedWord w) : RefusedIff (BadOperandsWord w) (decode w) := by
  rw [unsupportedWord_iff, not_or, Nat.not_le, not_not] at h
  obtain ⟨hopc, hrsv⟩ := h
  rw [badOperandsWord_iff hopc]
  by_cases hnops : nopsField w = nopsOf (opcField w)
  · have hdecode : decode w = decodeOperands (opcField w) (slot0Field w) (slot1Field w) := by
      simp [decode, hrsv, hnops, Nat.not_le.2 hopc]
    rw [hdecode]
    cases opcodeShape hopc with
    | none i nops decodes => simpa [decodes, hnops, nops] using refusedIff_decodeNone i _ _
    | one mk nops decodes => simpa [decodes, hnops, nops] using refusedIff_decodeOne mk _ _
    | two mk nops decodes => simpa [decodes, hnops, nops] using refusedIff_decodeTwo mk _ _
  · simp [RefusedIff, decode, hrsv, hnops, Nat.not_le.2 hopc]

end Sys2Proof

namespace Sys2Proof.Machine

open Sys2Proof.Claims

/-! ## A step that fetches a reserved word -/

/-- The store holds `w` at `ip`, so a fetch there gives it (R33, R79). -/
theorem fetchWord_of_fetchedWord {s : State} {w : InstrWord} (h : FetchedWord s w) :
    fetchWord s.cfg s.top.regs.ip = some w := by
  obtain ⟨hindex, hword⟩ := h
  rw [fetchIndex] at hindex hword
  simp [fetchWord, Int.not_lt.2 hindex, hword]

/-- The fault a decode error raises at stage 4 (R65, R79). -/
def decodeFault : DecodeError → FaultKind
  | .unsupportedOpcode => .unsupportedOpcode
  | .invalidOperand => .invalidOperand

theorem fetchDecode_of_decode_error {c : Config} {a : Word} {w : InstrWord} {e : DecodeError}
    (hw : fetchWord c a = some w) (he : decode w = .error e) : fetchDecode c a = .error (decodeFault e, 0) := by
  cases e <;> simp [fetchDecode, hw, he, decodeFault]

theorem historyFull_of_running {s : State} (h : Running s) : s.historyFull = false := by
  rw [← Bool.not_eq_true, historyFull_iff]
  exact h.2

/-- A fault raised before stage 5 latches the fetch address and has only the effects of stages 1 and 2 (R81). -/
theorem raise_beginStep (s : State) (k : FaultKind) (f : Int) :
    s.beginStep.raise k f = { begun s with fault := some ⟨k, s.top.regs.ip, f⟩ } := by
  rw [State.raise, s.beginStep_fetchAddress, s.beginStep_eq]
  rfl

/-- A running step at a word decode refuses raises that fault with address 0, and does nothing after stages 1 and 2. -/
theorem step_of_decode_error {s : State} {w : InstrWord} {e : DecodeError} (hrun : Running s) (hw : FetchedWord s w)
    (he : decode w = .error e) :
    step s = .next { begun s with fault := some ⟨decodeFault e, s.top.regs.ip, 0⟩ } := by
  rw [step_running hrun.1 (historyFull_of_running hrun),
    fetchDecode_of_decode_error (fetchWord_of_fetchedWord hw) he, ← raise_beginStep]

/-- Settles O3: decode refuses the words of the table, and a word it accepts is the word of its instruction. -/
theorem reservedWordsRaiseTheirFault : Obligations.ReservedWordsRaiseTheirFault := by
  intro s w hrun hw
  refine ⟨fun hbad => ?_, fun hsupported hbad => ?_, fun hsupported hgood => ?_⟩
  · exact step_of_decode_error hrun hw (decode_of_unsupportedWord hbad)
  · exact step_of_decode_error hrun hw ((refusedIff_decode hsupported).1 hbad)
  · obtain ⟨i, hi⟩ := (refusedIff_decode hsupported).2 hgood
    exact ⟨i, hi, encode_of_decode hi⟩

end Sys2Proof.Machine
end

section
/-! PROOF. The operand kinds an instruction refuses (30_encoding.md R62, R83): the kind checks come before every effect, and
past them no operation raises InvalidOperand. -/

namespace Sys2Proof.Machine

open Sys2Proof.Claims

/-- A latched record, if there is one, is of one of the kinds `ks`. -/
def State.LatchIn (ks : List FaultKind) (s : State) : Prop := ∀ r, s.fault = some r → r.kind ∈ ks

/-- The run ends, completed or abandoned, with a latch of one of the kinds `ks`. -/
def Run.LatchIn (ks : List FaultKind) (x : Run) : Prop := x.state.LatchIn ks

namespace State.LatchIn

variable {ks : List FaultKind} {s : State}

theorem of_clear (h : s.fault = none) : s.LatchIn ks := by simp [State.LatchIn, h]

theorem of_fault_eq {u : State} (h : s.LatchIn ks) (hf : u.fault = s.fault) : u.LatchIn ks := fun r hr => h r (hf ▸ hr)

theorem raise {k : FaultKind} (hk : k ∈ ks) (f : Int) : Run.LatchIn ks (.error (s.raise k f)) := by
  rintro _ ⟨⟩
  exact hk

theorem lowerSp (h : s.LatchIn ks) : s.lowerSp.LatchIn ks := h.of_fault_eq s.lowerSp_fault

theorem memWrite (h : s.LatchIn ks) (hk : .segmentViolation ∈ ks) (a : Int) (v : Word) : (s.memWrite a v).LatchIn ks := by
  cases hw : writableWord s.cfg a with
  | true => rw [s.memWrite_ok v hw]; exact h
  | false => rw [s.memWrite_error v hw]; exact raise hk a

/-- A destination that is no Immediate refuses a write only for its address. -/
theorem writeOp (h : s.LatchIn ks) (hk : .segmentViolation ∈ ks) {dst : Operand} (hdst : dst.isImm = false) (v : Word) :
    (s.writeOp dst v).LatchIn ks := by
  cases dst with
  | reg r => exact h
  | imm w => simp [Operand.isImm] at hdst
  | mem b neg d => exact h.memWrite hk _ v

theorem jump (h : s.LatchIn ks) (hk : .invalidAddress ∈ ks) (x : Word) : (s.jump x).LatchIn ks := by
  cases ht : inText s.cfg x with
  | true => rw [s.jump_ok ht]; exact h
  | false => rw [s.jump_error ht]; exact raise hk _

end State.LatchIn

theorem Run.LatchIn.bind {ks : List FaultKind} {x : Run} {f : State → Run} (hx : x.LatchIn ks)
    (hf : ∀ u : State, u.LatchIn ks → (f u).LatchIn ks) : Run.LatchIn ks (x >>= f) := by
  cases x with
  | ok u => exact hf u hx
  | error u => exact hx

theorem Run.LatchIn.of_outcome {ks : List FaultKind} {x : Run} {t : State} (hx : x.LatchIn ks)
    (h : x.outcome = .next t) : t.LatchIn ks := by
  rw [Run.outcome_eq] at h
  cases h
  exact hx

theorem Operand.isImm_of_pairOk {dst src : Operand} (h : dst.pairOk src = true) : dst.isImm = false := by
  simp_all [Operand.pairOk]

/-- The faults stage 5 raises in an instruction whose operand kinds are accepted: of the write check and of the jump check
(R113). -/
theorem latchIn_of_exec {i : Instr} {s t : State} (hkinds : i.wellFormed = true) (hs : s.fault = none)
    (h : exec i s = .next t) : t.LatchIn [.segmentViolation, .invalidAddress] := by
  have hclear : s.LatchIn [.segmentViolation, .invalidAddress] := .of_clear hs
  have hsv : FaultKind.segmentViolation ∈ [FaultKind.segmentViolation, .invalidAddress] := by decide
  have hia : FaultKind.invalidAddress ∈ [FaultKind.segmentViolation, .invalidAddress] := by decide
  cases i with
  | mov dst src =>
    refine Run.LatchIn.of_outcome ?_ h
    rw [s.checkPair_ok hkinds]
    exact hclear.writeOp hsv (Operand.isImm_of_pairOk hkinds) _
  | add dst src =>
    refine Run.LatchIn.of_outcome ?_ h
    rw [s.checkPair_ok hkinds]
    exact hclear.writeOp hsv (Operand.isImm_of_pairOk hkinds) _
  | sub dst src =>
    refine Run.LatchIn.of_outcome ?_ h
    rw [s.checkPair_ok hkinds]
    exact (hclear.writeOp hsv (Operand.isImm_of_pairOk hkinds) _).bind fun _ hu => hu
  | cmp dst src =>
    refine Run.LatchIn.of_outcome ?_ h
    rw [s.checkPair_ok hkinds]
    exact hclear
  | jmp target => exact Run.LatchIn.of_outcome (hclear.jump hia _) h
  | jne target =>
    refine Run.LatchIn.of_outcome ?_ h
    split
    · exact hclear
    · exact hclear.jump hia _
  | je target =>
    refine Run.LatchIn.of_outcome ?_ h
    split
    · exact hclear.jump hia _
    · exact hclear
  | push src => exact Run.LatchIn.of_outcome (hclear.lowerSp.memWrite hsv _ _) h
  | pop dst =>
    have hdst : dst.isImm = false := by simpa [Instr.wellFormed] using hkinds
    refine Run.LatchIn.of_outcome ?_ h
    rw [hdst]
    exact (hclear.writeOp hsv hdst _).bind fun _ hu => hu
  | call target =>
    exact Run.LatchIn.of_outcome ((hclear.lowerSp.memWrite hsv _ _).bind fun _ hu => hu.jump hia _) h
  | ret =>
    refine Run.LatchIn.of_outcome ?_ h
    exact (hclear.jump hia _).bind fun _ hu => hu
  | mul src =>
    refine Run.LatchIn.of_outcome ?_ h
    rw [show src.isReg = true from hkinds]
    exact hclear
  | nop => exact Run.LatchIn.of_outcome (x := .ok s) hclear h

/-- A handler whose run is the raise of InvalidOperand has no other effect. -/
theorem next_raise_invalidOperand (s : State) : Run.outcome (.error (s.raise .invalidOperand 0))
    = .next { s with fault := some ⟨.invalidOperand, s.top.regs.ip - 1, 0⟩ } := by
  rw [Run.outcome_error, State.raise, s.fetchAddress_eq]

/-- The pair check comes first in a two-operand handler, so a refused pair abandons it at once. -/
theorem outcome_checkPair_of_not_pairOk {s : State} {dst src : Operand} (h : dst.pairOk src = false) (k : State → Run) :
    Run.outcome (s.checkPair dst src false >>= k)
      = .next { s with fault := some ⟨.invalidOperand, s.top.regs.ip - 1, 0⟩ } := by
  rw [s.checkPair_error h]
  exact next_raise_invalidOperand s

/-- An instruction with refused operand kinds raises InvalidOperand (R62). -/
theorem raises_invalidOperand {i : Instr} (s : State) (hkinds : i.wellFormed = false) :
    Raises i s s .invalidOperand 0 := by
  cases i with
  | mov dst src => exact outcome_checkPair_of_not_pairOk hkinds _
  | add dst src => exact outcome_checkPair_of_not_pairOk hkinds _
  | sub dst src => exact outcome_checkPair_of_not_pairOk hkinds _
  | cmp dst src => exact outcome_checkPair_of_not_pairOk hkinds _
  | pop dst =>
    have hdst : dst.isImm = true := by simpa [Instr.wellFormed] using hkinds
    rw [Raises, exec, execPop, hdst]
    exact next_raise_invalidOperand s
  | mul src =>
    rw [Raises, exec, execMul, show src.isReg = false from hkinds]
    exact next_raise_invalidOperand s
  | jmp | jne | je | push | call | ret | nop => cases hkinds

/-- Settles O34: refused kinds are found before any effect, and accepted kinds leave only the write and jump checks. -/
theorem invalidOperandExactlyForRefusedKinds : Obligations.InvalidOperandExactlyForRefusedKinds := by
  refine fun i s hs => ⟨raises_invalidOperand s, fun t r h hr hk => ?_⟩
  by_contra hkinds
  have hmem := latchIn_of_exec (by simpa using hkinds) hs h r hr
  simp [hk] at hmem

end Sys2Proof.Machine
end

section
/-! PROOF. Text on the host's side: an operand's display text reads back (30_encoding.md R72, R73, R78), what assembling a
source gives (R74 to R76), and `instructions()` (R78). -/

namespace Sys2Proof.Machine

/-! ## Reading back the display text of an operand -/

theorem hexValue_hexDigit : ∀ n < 16, hexValue (hexDigit n) = some n := by decide

theorem hexDigits_cons_hexDigit (acc : Nat) {n : Nat} (h : n < 16) (t : Text) :
    hexDigits acc (hexDigit n :: t) = hexDigits (16 * acc + n) t := by
  rw [hexDigits, hexValue_hexDigit n h]

/-- Four hex digits are the value of the word they show (R73, R78). -/
theorem parseHex_showWord (v : Word) : parseHex (showWord v) = some v.toNat := by
  have hv := v.isLt
  have hnibble : ∀ lo, field v (lo + 3) lo < 16 := fun lo =>
    (Nat.mod_lt _ (Nat.two_pow_pos _)).trans_eq (by rw [show lo + 3 + 1 - lo = 4 by omega])
  have hdigits : parseHex (showWord v) = hexDigits 0
      [hexDigit (field v 15 12), hexDigit (field v 11 8), hexDigit (field v 7 4), hexDigit (field v 3 0)] := rfl
  rw [hdigits, hexDigits_cons_hexDigit _ (hnibble 12), hexDigits_cons_hexDigit _ (hnibble 8),
    hexDigits_cons_hexDigit _ (hnibble 4), hexDigits_cons_hexDigit _ (hnibble 0), hexDigits]
  simp only [field]
  congr 1
  omega

theorem trunc16_toNat (v : Word) : trunc16 (v.toNat : Int) = v := by
  apply BitVec.eq_of_toNat_eq
  have hv := v.isLt
  have h := toNat_trunc16 (v.toNat : Int)
  omega

/-- After the base register: a sign, the magnitude and the closing bracket (R72, R73). -/
theorem parseDisp_showWord (b : RegId) (neg : Bool) (d : Word) :
    parseDisp b ((if neg then '-' else '+') :: (showWord d ++ [']'])) = some (.mem b neg d) := by
  have hd : d.toNat ≤ 0xFFFF := Nat.le_of_lt_succ d.isLt
  cases neg <;> simp [parseDisp, parseHex_showWord, hd]

/-- A memory operand's text starts with the bracket and the two letters of the base register. -/
theorem parseMem_regName (b : RegId) (rest : Text) : parseMem ('[' :: (regName b ++ rest)) = parseDisp b rest := by
  cases b <;> rfl

/-- With no label declared, a token of a memory operand's form is that operand (R72 case 3). -/
theorem parseOperand_of_parseMem (c : Config) {t : Text} {op : Operand} (hreg : parseReg t = none)
    (hmem : parseMem t = some op) : parseOperand c ⟨[], []⟩ t = .ok op := by
  simp [parseOperand, labelOperand, hreg, hmem]

/-- With no label declared, a hex literal is the Immediate of its low 16 bits (R63, R72 case 4). -/
theorem parseOperand_of_parseHex (c : Config) {t : Text} {n : Nat} (hreg : parseReg t = none) (hmem : parseMem t = none)
    (hhex : parseHex t = some n) : parseOperand c ⟨[], []⟩ t = .ok (.imm (trunc16 n)) := by
  simp [parseOperand, labelOperand, hreg, hmem, hhex]

/-- A bracketed base register and what follows it is a memory operand: `[` begins no register name (R72 case 3). -/
theorem parseOperand_bracket (c : Config) {b : RegId} {rest : Text} {op : Operand} (h : parseDisp b rest = some op) :
    parseOperand c ⟨[], []⟩ ('[' :: (regName b ++ rest)) = .ok op := by
  have hmem : parseMem ('[' :: (regName b ++ rest)) = some op := (parseMem_regName b rest).trans h
  exact parseOperand_of_parseMem c rfl hmem

/-- Settles O45: each form of operand is recognised by its case of R72. -/
theorem operandTextReadsBack : Obligations.OperandTextReadsBack := by
  intro c op hop
  cases op with
  | reg r => cases r <;> rfl
  | imm v =>
    rw [showOperand, parseOperand_of_parseHex c rfl rfl (parseHex_showWord v), trunc16_toNat]
  | mem b neg d =>
    by_cases hd : d = 0
    · subst hd
      obtain rfl : neg = false := by
        cases neg with
        | false => rfl
        | true => exact absurd rfl (hop b)
      exact parseOperand_bracket c rfl
    · have htext : showOperand (.mem b neg d)
          = '[' :: (regName b ++ ((if neg then '-' else '+') :: (showWord d ++ [']']))) := by
        rw [showOperand, if_neg hd]
        simp
      rw [htext]
      exact parseOperand_bracket c (parseDisp_showWord b neg d)

/-! ## `instructions()` -/

theorem length_listing (a : Int) (l : List InstrWord) : (listing a l).length = l.length := by
  induction l generalizing a with
  | nil => rfl
  | cons w rest ih => simp [listing, ih]

theorem getElem?_listing (a : Int) {l : List InstrWord} {i : Nat} {w : InstrWord} (h : l[i]? = some w) :
    (listing a l)[i]? = some (a + i, showStoreWord w) := by
  induction l generalizing a i with
  | nil => simp at h
  | cons w' rest ih =>
    cases i with
    | zero => simp_all [listing]
    | succ j =>
      rw [List.getElem?_cons_succ] at h
      rw [listing, List.getElem?_cons_succ, ih _ h, show a + 1 + (j : Int) = a + (j + 1 : Nat) by omega]

/-- Settles O47, by induction over the store. -/
theorem listingHasOneEntryPerInstruction : Obligations.ListingHasOneEntryPerInstruction :=
  fun s => ⟨length_listing _ _, fun _ _ => getElem?_listing s.cfg.textBase⟩

/-! ## Assembling a source -/

/-- A statement sequence of the loader succeeds when each part does. -/
theorem except_bind_eq_ok {α β : Type} {x : Except ParseError α} {f : α → Except ParseError β} {b : β}
    (h : x >>= f = .ok b) : ∃ a, x = .ok a ∧ f a = .ok b := by
  cases x with
  | ok a => exact ⟨a, rfl, h⟩
  | error e => cases h

/-- What a source that assembles gives (R74, R75, R76). -/
theorem assemble_eq_ok {c c' : Config} {ls : List Text} (h : assemble c ls = .ok c') :
    ∃ sc words, Scan.start.lineList ls = .ok sc ∧ assembleLines c sc.labels.withEntry sc.lines = .ok words
      ∧ c' = { c with store := words, dataImage := sc.data, entry := entryOf c sc.labels.withEntry } := by
  obtain ⟨sc, hsc, h⟩ := except_bind_eq_ok h
  obtain ⟨words, hwords, h⟩ := except_bind_eq_ok h
  cases h
  exact ⟨sc, words, hsc, hwords, rfl⟩

/-- Every store word is the encoding of an instruction (R76). -/
theorem exists_encode_of_mem_assembleLines {c : Config} {labels : Labels} {lines : List (Text × List Text)}
    {words : List InstrWord} (h : assembleLines c labels lines = .ok words) {w : InstrWord} (hw : w ∈ words) :
    ∃ i, encode i = w := by
  induction lines generalizing words with
  | nil => cases h; cases hw
  | cons line rest ih =>
    obtain ⟨ops, -, h⟩ := except_bind_eq_ok h
    obtain ⟨i, -, h⟩ := except_bind_eq_ok h
    obtain ⟨words', hrest, h⟩ := except_bind_eq_ok h
    cases h
    rcases List.mem_cons.1 hw with rfl | hw
    · exact ⟨i, rfl⟩
    · exact ih hrest hw

/-- Settles O46: the loader stores encodings only. -/
theorem assembledWordsDecode : Obligations.AssembledWordsDecode := by
  intro c c' ls h w hw
  obtain ⟨sc, words, -, hwords, rfl⟩ := assemble_eq_ok h
  obtain ⟨i, rfl⟩ := exists_encode_of_mem_assembleLines hwords hw
  exact ⟨i, decode_encode i⟩

/-! ## The entry point -/

/-- A declared `_start` of the text stays where it is. -/
theorem Labels.withEntry_of_text {labels : Labels} {o : Nat} (h : labels.text.lookup startName = some o) :
    labels.withEntry = labels := by
  simp [Labels.withEntry, h]

/-- A `_start` of the data section alone is left as the only one (log entry 22). -/
theorem Labels.withEntry_of_data {labels : Labels} {o : Nat} (h : labels.data.lookup startName = some o) :
    labels.withEntry = labels := by
  simp [Labels.withEntry, h]

/-- Where no section declares `_start`, it is at text offset 0 (R75). -/
theorem Labels.lookup_text_withEntry {labels : Labels} (htext : labels.text.lookup startName = none)
    (hdata : labels.data.lookup startName = none) : labels.withEntry.text.lookup startName = some 0 := by
  simp [Labels.withEntry, htext, hdata, List.lookup_append]

theorem entryOf_of_text {c : Config} {labels : Labels} {o : Nat} (h : labels.text.lookup startName = some o) :
    entryOf c labels = trunc16 (c.textBase + o) := by
  rw [entryOf, h, Option.getD_some]

theorem entryOf_of_no_text {c : Config} {labels : Labels} (h : labels.text.lookup startName = none) :
    entryOf c labels = trunc16 c.textBase := by
  simp [entryOf, h]

/-- A text label is the Immediate of its address, whatever else the token may be (R72 case 1, R74). -/
theorem parseOperand_of_text {c : Config} {labels : Labels} {t : Text} {o : Nat} (h : labels.text.lookup t = some o) :
    parseOperand c labels t = .ok (.imm (trunc16 (c.textBase + o))) := by
  simp [parseOperand, labelOperand, h]

/-- Settles O48: by the section that declares `_start`, if one does. -/
theorem entryIsTheStartLabelOrTheTextBase : Obligations.EntryIsTheStartLabelOrTheTextBase := by
  intro c c' ls h
  obtain ⟨sc, words, hsc, hwords, rfl⟩ := assemble_eq_ok h
  refine ⟨sc, hsc, fun o ho => ?_, fun hnone => ?_, fun hdata => ?_, hwords⟩ <;> dsimp only
  · rw [Labels.withEntry_of_text ho, entryOf_of_text ho]
  · cases hdata : sc.labels.data.lookup startName with
    | some o => rw [Labels.withEntry_of_data hdata, entryOf_of_no_text hnone]
    | none => simp [entryOf_of_text (Labels.lookup_text_withEntry hnone hdata)]
  · cases htext : sc.labels.text.lookup startName with
    | some o => rw [Labels.withEntry_of_text htext, parseOperand_of_text htext, entryOf_of_text htext]
    | none =>
      have hstart := Labels.lookup_text_withEntry htext hdata
      rw [parseOperand_of_text hstart, entryOf_of_text hstart]

end Sys2Proof.Machine
end

section
/-! PROOF. The stages of `step()` one by one and what the call returns for each (40_fetch_decode_execute.md R79 to R81;
44_snapshot_host.md R109). -/

namespace Sys2Proof.Machine

open Sys2Proof.Claims

/-! ## What the call returns -/

theorem stepCall_of_latched {s : State} {r : FaultRecord} (h : step s = .fault (.latched r)) :
    stepCall s = (.err r, s) := by
  rw [stepCall, h]

theorem stepCall_of_refused {s : State} {q : Refusal} (h : step s = .refused q) : stepCall s = (.historyFull, s) := by
  rw [stepCall, h]

/-- A step that leaves the latch clear returns Ok. -/
theorem stepCall_of_completed {s t : State} (h : step s = .next t) (ht : t.fault = none) : stepCall s = (.ok, t) := by
  simp only [stepCall, h, ht]

/-- A step that raises a fault returns the record it latched. -/
theorem stepCall_of_raised {s t : State} {r : FaultRecord} (h : step s = .next t) (ht : t.fault = some r) :
    stepCall s = (.err r, t) := by
  simp only [stepCall, h, ht]

/-! ## The calls that run nothing -/

theorem step_of_latched {s : State} {r : FaultRecord} (h : s.fault = some r) : step s = .fault (.latched r) := by
  rw [step, h]

theorem step_of_historyFull {s : State} (hf : s.fault = none) (hfull : s.historyFull = true) :
    step s = .refused .historyFull := by
  simp only [step, hf, hfull, if_true]

/-! ## Fetch, decode, dispatch -/

theorem beginStep_eq_begun (s : State) : s.beginStep = begun s := s.beginStep_eq

theorem fetchDecode_of_fetchWord_none {c : Config} {a : Word} (h : fetchWord c a = none) :
    fetchDecode c a = .error (.invalidAddress, a.toNat) := by
  rw [fetchDecode, h]

theorem fetchDecode_of_decode_ok {c : Config} {a : Word} {w : InstrWord} {i : Instr} (hw : fetchWord c a = some w)
    (hi : decode w = .ok i) : fetchDecode c a = .ok i := by
  simp only [fetchDecode, hw, hi]

/-- An index outside the store raises InvalidAddress with the fetch address, after stages 1 and 2 only. -/
theorem step_of_fetchIndex_outside {s : State} (hrun : Running s)
    (hout : fetchIndex s < 0 ∨ (s.cfg.nInstr : Int) ≤ fetchIndex s) :
    step s = .next { begun s with fault := some ⟨.invalidAddress, s.top.regs.ip, s.top.regs.ip.toNat⟩ } := by
  have hnone : fetchWord s.cfg s.top.regs.ip = none := fetchWord_eq_none_iff.2 hout
  rw [step_running hrun.1 (historyFull_of_running hrun), fetchDecode_of_fetchWord_none hnone, ← raise_beginStep]

theorem exists_fetchedWord {s : State} (hlo : 0 ≤ fetchIndex s) (hhi : fetchIndex s < s.cfg.nInstr) :
    ∃ w, FetchedWord s w := by
  have hlt : (fetchIndex s).toNat < s.cfg.store.length := by
    rw [Config.nInstr] at hhi
    omega
  exact ⟨_, hlo, List.getElem?_eq_getElem hlt⟩

/-- Settles O26: neither the latch nor the history stops the step, and the word at `ip` is the one fetched. -/
theorem stepRunsTheDecodedInstruction : Obligations.StepRunsTheDecodedInstruction := by
  intro s w i hrun hw hi
  rw [step_running hrun.1 (historyFull_of_running hrun), fetchDecode_of_decode_ok (fetchWord_of_fetchedWord hw) hi,
    beginStep_eq_begun]

/-- Settles O27, stage by stage; a handler always answers a next state, and its latch decides what the call returns. -/
theorem stepFollowsItsStages : Obligations.StepFollowsItsStages := by
  intro s
  refine ⟨fun r hr => ?latched, fun hf hmax => ?full, fun hrun hout => ?outside, fun hrun hlo hhi => ?fetched⟩
  case latched =>
    have hstep := step_of_latched hr
    exact ⟨hstep, stepCall_of_latched hstep⟩
  case full =>
    have hstep := step_of_historyFull hf (historyFull_iff.2 hmax)
    exact ⟨hstep, stepCall_of_refused hstep⟩
  case outside =>
    have hstep := step_of_fetchIndex_outside hrun hout
    exact ⟨hstep, stepCall_of_raised hstep rfl⟩
  case fetched =>
    obtain ⟨w, hw⟩ := exists_fetchedWord hlo hhi
    refine ⟨w, hw, step_of_decode_error hrun hw, step_of_decode_error hrun hw, fun i hi => ?_⟩
    have hstep : step s = exec i (begun s) := stepRunsTheDecodedInstruction s w i hrun hw hi
    obtain ⟨t, ht, -⟩ := exec_stageFive i (begun s)
    have hnext : step s = .next t := hstep.trans ht
    exact ⟨hstep, t, ht, stepCall_of_completed hnext, fun _ => stepCall_of_raised hnext⟩

end Sys2Proof.Machine
end

section
/-! PROOF. mov, add, sub, cmp and mul (41_move_arith.md R87 to R92): the 16-bit laws, then for each instruction its word, its
faults, its result and its frame. -/

namespace Sys2Proof.Machine

open Sys2Proof.Claims

/-! ## Arithmetic -/

theorem toNat_add16 (d s : Word) : (add16 d s).toNat = (d.toNat + s.toNat) % 0x10000 := by
  rw [add16_eq, BitVec.toNat_add]

theorem toNat_sub16 (d s : Word) : ((sub16 d s).toNat : Int) = (d.toNat - s.toNat : Int) % 0x10000 := toNat_trunc16 _

theorem sub16_eq_zero_iff {d s : Word} : sub16 d s = 0 ↔ d = s := by rw [sub16_eq, sub_eq_zero]

/-- The difference modulo `0x10000` that `zf` is computed from is the one written. -/
theorem emod_sub_eq_zero_iff {d s : Word} : (d.toNat - s.toNat : Int) % 0x10000 = 0 ↔ sub16 d s = 0 := by
  rw [← toNat_sub16, Int.natCast_eq_zero, BitVec.toNat_eq]
  rfl

theorem product_le (x y : Word) : product x y ≤ 0xFFFE0001 :=
  calc product x y ≤ 0xFFFF * 0xFFFF := Nat.mul_le_mul (Nat.le_of_lt_succ x.isLt) (Nat.le_of_lt_succ y.isLt)
    _ = 0xFFFE0001 := by decide

theorem toNat_productLow (p : Nat) : (productLow p).toNat = p % 0x10000 := BitVec.toNat_ofNat ..

/-- The high half of a product of two words fits in 16 bits. -/
theorem toNat_productHigh_product (x y : Word) : (productHigh (product x y)).toNat = product x y / 0x10000 := by
  have hle := product_le x y
  rw [productHigh, BitVec.toNat_ofNat]
  omega

/-- Settles O14: `add16` and `sub16` reduce modulo `0x10000`, and two 16-bit values differ by less than that. -/
theorem zeroDifferenceMeansEqualOperands : Obligations.ZeroDifferenceMeansEqualOperands := fun d s =>
  ⟨emod_sub_eq_zero_iff.trans sub16_eq_zero_iff, sub16_eq_zero_iff, toNat_add16 d s, toNat_sub16 d s, rfl, product_le d s⟩

/-! ## The word of an instruction -/

/-- The fields of R60 are those of `EncodedAs`, and every word an instruction encodes to decodes to it. -/
theorem encodedAs_of_fields {i : Instr} {opc nops : Nat} {slot0 slot1 : Slot}
    (h : Laws.EncodeFields.Fields (encode i) opc nops slot0 slot1) : EncodedAs i opc nops slot0 slot1 := by
  obtain ⟨hopc, hnops, hrsv0, hslot0, hslot1⟩ := h
  exact ⟨hopc, hnops, hrsv0, hslot0, hslot1, decode_encode i⟩

/-! ## The operand pair -/

theorem Operand.pairOk_eq_false_iff {dst src : Operand} :
    dst.pairOk src = false ↔ dst.isImm = true ∨ (dst.isMem = true ∧ src.isMem = true) := by
  cases hdst : dst.isImm <;> simp [Operand.pairOk, hdst]

theorem Operand.pairOk_of_kinds {dst src : Operand} (himm : dst.isImm = false)
    (hmem : ¬ (dst.isMem = true ∧ src.isMem = true)) : dst.pairOk src = true := by
  rw [← Bool.not_eq_false, Operand.pairOk_eq_false_iff, himm]
  simpa using hmem

theorem Operand.pairOk_mem {src : Operand} (h : src.isMem = false) (b : RegId) (neg : Bool) (d : Word) :
    (Operand.mem b neg d).pairOk src = true :=
  Operand.pairOk_of_kinds rfl (by simp [h])

/-! ## The destination write -/

/-- `WriteOp` at a destination that takes the value: a register, or an address the write check accepts (R43). -/
theorem State.exists_writeOp_eq_ok (s : State) {dst : Operand} (v : Word) (himm : dst.isImm = false)
    (hopen : DestinationOpen dst s) (hwf : s.top.mem.wf) :
    ∃ t, s.writeOp dst v = .ok t ∧ ControlKept s t ∧ t.top.flags = s.top.flags ∧ Written dst v s t := by
  cases dst with
  | reg r =>
    obtain ⟨hget, hothers, hflags, hmem, hcontrol⟩ := registerWriteChangesOneRegister s r v
    exact ⟨s.setReg r v, rfl, hcontrol, hflags, hget, hothers, hmem⟩
  | imm w => cases himm
  | mem b neg d =>
    obtain ⟨t, ht, hcontrol, hregs, hflags, hstored⟩ :=
      (checkedStoreWritesBothBytesOrNeither s (s.effAddr b neg d) v).2 (hopen b neg d rfl) hwf
    exact ⟨t, ht, hcontrol, hflags, fun r _ => by rw [hregs], hstored⟩

/-- `WriteOp` at an address the write check refuses (R41, R43). -/
theorem State.writeOp_of_not_canStore {s : State} {b : RegId} {neg : Bool} {d : Word} (v : Word)
    (h : ¬ CanStore s.cfg (s.effAddr b neg d)) : s.writeOp (.mem b neg d) v =
      .error { s with fault := some ⟨.segmentViolation, s.top.regs.ip - 1, s.effAddr b neg d⟩ } :=
  (checkedStoreWritesBothBytesOrNeither s (s.effAddr b neg d) v).1 h

/-- The flag write of `sub` comes after its destination write and leaves that as it is. -/
theorem Written.setZf {dst : Operand} {v : Word} {s t : State} (h : Written dst v s t) (z : Bool) :
    Written dst v s (t.setZf z) := by
  cases dst <;> exact h

/-! ## The handlers, past the check of the operand kinds -/

theorem outcome_checkPair_of_pairOk {s : State} {dst src : Operand} (h : dst.pairOk src = true) (k : State → Run) :
    Run.outcome (s.checkPair dst src false >>= k) = (k s).outcome := by
  rw [s.checkPair_ok h]
  rfl

section
variable {dst src : Operand} (s : State) (h : dst.pairOk src = true)
include h

theorem exec_mov : exec (.mov dst src) s = (s.writeOp dst (s.readOp src)).outcome := outcome_checkPair_of_pairOk h _

theorem exec_add : exec (.add dst src) s = (s.writeOp dst (add16 (s.readOp dst) (s.readOp src))).outcome :=
  outcome_checkPair_of_pairOk h _

theorem exec_sub : exec (.sub dst src) s = Run.outcome (s.writeOp dst (sub16 (s.readOp dst) (s.readOp src)) >>=
    fun t => .ok (t.setZf (zeroFlag (sub16 (s.readOp dst) (s.readOp src))))) := outcome_checkPair_of_pairOk h _

theorem exec_cmp : exec (.cmp dst src) s = .next (s.setZf (zeroFlag (sub16 (s.readOp dst) (s.readOp src)))) :=
  outcome_checkPair_of_pairOk h _

end

theorem exec_mul_reg (r : RegId) (s : State) :
    exec (.mul (.reg r)) s = .next (s.writeProduct (product (s.reg .ax) (s.reg r))) := rfl

/-! ## mov, add, sub and cmp -/

/-- Settles O10: past the kind check, `mov` is one `WriteOp` of the source's value. -/
theorem movCopiesSourceToDestination : Obligations.MovCopiesSourceToDestination := by
  intro s dst src
  refine ⟨encodedAs_of_fields (Laws.EncodeFields.mov dst src),
    fun hkinds => raises_invalidOperand s (Operand.pairOk_eq_false_iff.2 hkinds), ?refused, ?completes⟩
  case refused =>
    rintro b neg d rfl hsrc hclosed
    rw [Raises, exec_mov s (Operand.pairOk_mem hsrc b neg d), State.writeOp_of_not_canStore _ hclosed]
    rfl
  case completes =>
    intro himm hmem hopen hwf
    obtain ⟨t, ht, hcontrol, hflags, hwritten⟩ := s.exists_writeOp_eq_ok (s.readOp src) himm hopen hwf
    refine ⟨t, ?_, hcontrol, hflags, hwritten⟩
    rw [exec_mov s (Operand.pairOk_of_kinds himm hmem), ht]
    rfl

/-- Settles O11: past the kind check, `add` is one `WriteOp` of the sum. -/
theorem addWritesTheSumModulo16Bits : Obligations.AddWritesTheSumModulo16Bits := by
  intro s dst src
  refine ⟨encodedAs_of_fields (Laws.EncodeFields.add dst src),
    fun hkinds => raises_invalidOperand s (Operand.pairOk_eq_false_iff.2 hkinds), ?refused, ?completes⟩
  case refused =>
    rintro b neg d rfl hsrc hclosed
    rw [Raises, exec_add s (Operand.pairOk_mem hsrc b neg d), State.writeOp_of_not_canStore _ hclosed]
    rfl
  case completes =>
    intro himm hmem hopen hwf
    obtain ⟨t, ht, hcontrol, hflags, hwritten⟩ :=
      s.exists_writeOp_eq_ok (add16 (s.readOp dst) (s.readOp src)) himm hopen hwf
    refine ⟨t, _, ?_, hcontrol, hflags, toNat_add16 _ _, hwritten⟩
    rw [exec_add s (Operand.pairOk_of_kinds himm hmem), ht]
    rfl

/-- Settles O12: `zf` is written after the destination, so a refused write leaves it alone. -/
theorem subWritesTheDifferenceAndZf : Obligations.SubWritesTheDifferenceAndZf := by
  intro s dst src
  refine ⟨encodedAs_of_fields (Laws.EncodeFields.sub dst src),
    fun hkinds => raises_invalidOperand s (Operand.pairOk_eq_false_iff.2 hkinds), ?refused, ?completes⟩
  case refused =>
    rintro b neg d rfl hsrc hclosed
    rw [Raises, exec_sub s (Operand.pairOk_mem hsrc b neg d), State.writeOp_of_not_canStore _ hclosed]
    rfl
  case completes =>
    intro himm hmem hopen hwf
    obtain ⟨t, ht, hcontrol, hflags, hwritten⟩ :=
      s.exists_writeOp_eq_ok (sub16 (s.readOp dst) (s.readOp src)) himm hopen hwf
    refine ⟨t.setZf (zeroFlag (sub16 (s.readOp dst) (s.readOp src))), _, ?_, hcontrol, toNat_sub16 _ _,
      Written.setZf hwritten _, ?_⟩
    · rw [exec_sub s (Operand.pairOk_of_kinds himm hmem), ht]
      rfl
    · rw [t.setZf_flags, hflags, zeroFlag_eq]

/-- Settles O13: past the kind check, `cmp` writes `zf` and reads memory unchecked. -/
theorem cmpWritesOnlyZf : Obligations.CmpWritesOnlyZf := by
  intro s dst src
  refine ⟨encodedAs_of_fields (Laws.EncodeFields.cmp dst src),
    fun hkinds => raises_invalidOperand s (Operand.pairOk_eq_false_iff.2 hkinds), fun himm hmem => ?_⟩
  refine ⟨_, exec_cmp s (Operand.pairOk_of_kinds himm hmem), ⟨rfl, rfl, rfl⟩, fun _ _ => rfl, fun _ => rfl, ?_⟩
  rw [State.setZf_flags, zeroFlag_eq, decide_eq_decide.2 emod_sub_eq_zero_iff]

/-! ## mul -/

@[simp] theorem State.writeProduct_regs (s : State) (p : Nat) :
    (s.writeProduct p).top.regs = (s.top.regs.set .ax (productLow p)).set .dx (productHigh p) := rfl

theorem State.writeProduct_regsKept (s : State) (p : Nat) : RegsKept [.ax, .dx] s (s.writeProduct p) := by
  intro r hr
  obtain ⟨hax, hdx⟩ : r ≠ .ax ∧ r ≠ .dx := by simpa using hr
  rw [s.writeProduct_regs, Registers.get_set_of_ne _ _ hdx, Registers.get_set_of_ne _ _ hax]

/-- Settles O15: the product is of the old values, and its high half, which is exact, decides `cf` and `of`. -/
theorem mulWritesTheProductHalvesAndWideFlags : Obligations.MulWritesTheProductHalvesAndWideFlags := by
  intro s src
  refine ⟨encodedAs_of_fields (Laws.EncodeFields.mul src), fun hreg => raises_invalidOperand s hreg, ?_⟩
  rintro r rfl
  exact ⟨_, exec_mul_reg r s, ⟨rfl, rfl, rfl⟩, s.writeProduct_regsKept _, fun _ => rfl, toNat_productLow _,
    toNat_productHigh_product _ _, s.writeProduct_wideFlagsOfDx _⟩

end Sys2Proof.Machine
end

section
/-! PROOF. jmp, jne and je (42_control_transfer.md R93 to R96): the two outcomes of the checked jump, stated for any
instruction whose run it is, then for each instruction when that is so. -/

namespace Sys2Proof.Machine

open Sys2Proof.Claims

/-! ## The checked jump -/

theorem inText_eq_true_iff {c : Config} {t : Word} : inText c t = true ↔ InText c t := inText_iff

theorem inText_eq_false_iff {c : Config} {t : Word} : inText c t = false ↔ ¬ InText c t := by
  rw [← inText_eq_true_iff, Bool.not_eq_true]

section
variable {i : Instr} {s : State} {target : Operand} (h : exec i s = (s.jumpTo target).outcome)
include h

/-- A jump out of the text segment has no effect but its fault (R93). -/
theorem raises_invalidAddress_of_jumpTo (hout : ¬ InText s.cfg (s.readOp target)) :
    Raises i s s .invalidAddress (s.readOp target).toNat := by
  rw [Raises, h, State.jumpTo, s.jump_error (inText_eq_false_iff.2 hout), Run.outcome_error, State.raise,
    s.fetchAddress_eq]

/-- A jump within the text segment is one write of `ip` (R93). -/
theorem exists_exec_eq_next_of_jumpTo (hin : InText s.cfg (s.readOp target)) :
    ∃ t, exec i s = .next t ∧ ControlKept s t ∧ RegsKept [.ip] s t ∧ MemKept s t
      ∧ t.top.flags = s.top.flags ∧ t.top.regs.ip = s.readOp target := by
  obtain ⟨hip, hothers, hflags, hmem, hcontrol⟩ := registerWriteChangesOneRegister s .ip (s.readOp target)
  refine ⟨s.setReg .ip (s.readOp target), ?_, hcontrol, hothers, hmem, hflags, hip⟩
  rw [h, State.jumpTo, s.jump_ok (inText_eq_true_iff.2 hin), Run.outcome_ok]

end

/-! ## The handlers -/

theorem exec_jmp (target : Operand) (s : State) : exec (.jmp target) s = (s.jumpTo target).outcome := rfl

section
variable (target : Operand) {s : State}

theorem exec_jne_of_zf_set (h : s.top.flags.zf = true) : exec (.jne target) s = .next s := by
  rw [exec, execJne, if_pos h, Run.outcome_ok]

theorem exec_jne_of_zf_clear (h : s.top.flags.zf = false) : exec (.jne target) s = (s.jumpTo target).outcome := by
  rw [exec, execJne, if_neg (ne_true_of_eq_false h)]

theorem exec_je_of_zf_clear (h : s.top.flags.zf = false) : exec (.je target) s = .next s := by
  rw [exec, execJe, if_neg (ne_true_of_eq_false h), Run.outcome_ok]

theorem exec_je_of_zf_set (h : s.top.flags.zf = true) : exec (.je target) s = (s.jumpTo target).outcome := by
  rw [exec, execJe, if_pos h]

end

/-! ## jmp, jne and je -/

/-- Settles O16: `jmp` is the checked jump in every state. -/
theorem jmpGoesToATargetInText : Obligations.JmpGoesToATargetInText := fun s target =>
  have hjump := exec_jmp target s
  ⟨encodedAs_of_fields (Laws.EncodeFields.jmp target), raises_invalidAddress_of_jumpTo hjump,
    exists_exec_eq_next_of_jumpTo hjump⟩

/-- Settles O17: `jne` is the checked jump where `zf` is clear, and nothing where it is set. -/
theorem jneJumpsExactlyWhenZfIsClear : Obligations.JneJumpsExactlyWhenZfIsClear := fun _ target =>
  ⟨encodedAs_of_fields (Laws.EncodeFields.jne target), exec_jne_of_zf_set target,
    fun hzf => raises_invalidAddress_of_jumpTo (exec_jne_of_zf_clear target hzf),
    fun hzf => exists_exec_eq_next_of_jumpTo (exec_jne_of_zf_clear target hzf)⟩

/-- Settles O18: `je` is the checked jump where `zf` is set, and nothing where it is clear. -/
theorem jeJumpsExactlyWhenZfIsSet : Obligations.JeJumpsExactlyWhenZfIsSet := fun _ target =>
  ⟨encodedAs_of_fields (Laws.EncodeFields.je target), exec_je_of_zf_clear target,
    fun hzf => raises_invalidAddress_of_jumpTo (exec_je_of_zf_set target hzf),
    fun hzf => exists_exec_eq_next_of_jumpTo (exec_je_of_zf_set target hzf)⟩

end Sys2Proof.Machine
end

section
/-! PROOF. push, pop, call, ret and nop (43_stack_misc.md R98 to R102): the stack slot that `push` and `call` store in, then
for each instruction its word, its faults, its result and its frame. -/

namespace Sys2Proof.Machine

open Sys2Proof.Claims

/-! ## Registers and the checked jump -/

theorem RegsKept.mono {rs rs' : List RegId} {s t : State} (h : RegsKept rs s t) (hsub : rs ⊆ rs') : RegsKept rs' s t :=
  fun r hr => h r fun hmem => hr (hsub hmem)

/-- One more register written. -/
theorem RegsKept.setReg {rs : List RegId} {s t : State} (h : RegsKept rs s t) (r : RegId) (v : Word) :
    RegsKept (rs ++ [r]) s (t.setReg r v) := by
  intro r' hr'
  obtain ⟨hrs, hne⟩ : r' ∉ rs ∧ r' ≠ r := by simpa using hr'
  rw [State.setReg_regs, Registers.get_set_of_ne _ _ hne, h r' hrs]

theorem State.jump_of_inText (s : State) {t : Word} (h : InText s.cfg t) : s.jump t = .ok (s.setReg .ip t) :=
  s.jump_ok (inText_eq_true_iff.2 h)

theorem State.jump_of_not_inText (s : State) {t : Word} (h : ¬ InText s.cfg t) :
    s.jump t = .error { s with fault := some ⟨.invalidAddress, s.top.regs.ip - 1, t.toNat⟩ } := by
  rw [s.jump_error (inText_eq_false_iff.2 h), State.raise, s.fetchAddress_eq]

theorem State.raiseSp_eq (s : State) : s.raiseSp = s.setReg .sp (s.top.regs.sp + 2) := by
  rw [State.raiseSp, add16_eq, State.reg_eq]
  rfl

/-! ## The slot below the stack -/

/-- The model's `sub sp,2` is the one the statements write out (R98). -/
theorem lowerSp_eq_lowered (s : State) : s.lowerSp = lowered s := by
  have hsp : sub16 (s.reg .sp) 2 = s.top.regs.sp - 2 := sub16_eq _ _
  rw [State.lowerSp, lowered, hsp]
  cases s.cfg.pushSetsZf <;> rfl

theorem regsKept_lowered (s : State) : RegsKept [.sp] s (lowered s) := fun _ hr =>
  s.top.regs.get_set_of_ne _ (List.ne_of_not_mem_cons hr)

section
variable {s : State} (v : Word)

/-- A refused store leaves `sp` lowered, and the fault records the fetch address of `s` (R98). -/
theorem lowered_memWrite_of_not_canStore (h : ¬ CanStore s.cfg (s.top.regs.sp - 2).toNat) :
    (lowered s).memWrite (s.top.regs.sp - 2).toNat v = .error { lowered s with
      fault := some ⟨.segmentViolation, s.top.regs.ip - 1, (s.top.regs.sp - 2).toNat⟩ } :=
  (checkedStoreWritesBothBytesOrNeither (lowered s) _ v).1 h

theorem lowered_memWrite_of_canStore (h : CanStore s.cfg (s.top.regs.sp - 2).toNat) :
    (lowered s).memWrite (s.top.regs.sp - 2).toNat v = .ok ((lowered s).storeWord (s.top.regs.sp - 2).toNat v) :=
  (lowered s).memWrite_ok v (writableWord_eq_true_iff.2 h)

/-- Lowering `sp` leaves memory alone, so the store is relative to `s` too. -/
theorem stored_lowered_storeWord (hwf : s.top.mem.wf) :
    Stored (s.top.regs.sp - 2).toNat v s ((lowered s).storeWord (s.top.regs.sp - 2).toNat v) :=
  (lowered s).stored_storeWord _ v hwf

end

/-! ## The handlers -/

theorem exec_push (src : Operand) (s : State) : exec (.push src) s =
    ((lowered s).memWrite (s.top.regs.sp - 2).toNat ((lowered s).readOp src)).outcome := by
  rw [exec, execPush, lowerSp_eq_lowered]
  rfl

/-- Past the kind check, `pop` is a write of the top word, then `sp += 2`. -/
theorem exec_pop {dst : Operand} (s : State) (h : dst.isImm = false) : exec (.pop dst) s =
    Run.outcome (s.writeOp dst (s.memRead s.top.regs.sp.toNat) >>= fun u => .ok u.raiseSp) := by
  rw [exec, execPop, h]
  rfl

/-- `call` is a push of `ip`, then a jump. -/
theorem exec_call (target : Operand) (s : State) : exec (.call target) s =
    Run.outcome ((lowered s).memWrite (s.top.regs.sp - 2).toNat s.top.regs.ip >>= fun u => u.jumpTo target) := by
  rw [exec, execCall, lowerSp_eq_lowered]
  rfl

theorem exec_call_of_canStore {s : State} (target : Operand) (h : CanStore s.cfg (s.top.regs.sp - 2).toNat) :
    exec (.call target) s = ((returnPushed s).jump ((returnPushed s).readOp target)).outcome := by
  rw [exec_call, lowered_memWrite_of_canStore _ h]
  rfl

theorem exec_ret (s : State) : exec .ret s =
    Run.outcome (s.jump (s.memRead s.top.regs.sp.toNat) >>= fun u => .ok u.raiseSp) := rfl

theorem exec_nop (s : State) : exec .nop s = .next s := rfl

/-! ## push, pop, call, ret and nop -/

/-- Settles O19: `push` is one checked store of the source, from the state whose `sp` is already lowered. -/
theorem pushStoresTheSourceBelowTheStack : Obligations.PushStoresTheSourceBelowTheStack := by
  intro s src
  refine ⟨encodedAs_of_fields (Laws.EncodeFields.push src), fun hclosed => ?refused, fun hopen hwf => ?completes⟩
  case refused =>
    rw [Raises, exec_push, lowered_memWrite_of_not_canStore _ hclosed, Run.outcome_error]
  case completes =>
    refine ⟨(lowered s).storeWord (s.top.regs.sp - 2).toNat ((lowered s).readOp src), ?_, ⟨rfl, rfl, rfl⟩,
      regsKept_lowered s, rfl, rfl, stored_lowered_storeWord _ hwf⟩
    rw [exec_push, lowered_memWrite_of_canStore _ hopen, Run.outcome_ok]

/-- Settles O20: past the kind check, `pop` is one `WriteOp` of the top word, and then a write of `sp` alone. -/
theorem popWritesTheTopWordThenRaisesSp : Obligations.PopWritesTheTopWordThenRaisesSp := by
  intro s dst
  refine ⟨encodedAs_of_fields (Laws.EncodeFields.pop dst),
    fun himm => raises_invalidOperand s (by simp [Instr.wellFormed, himm]), ?refused, ?completes⟩
  case refused =>
    rintro b neg d rfl hclosed
    rw [Raises, exec_pop s rfl, State.writeOp_of_not_canStore _ hclosed]
    rfl
  case completes =>
    intro himm hopen hwf
    obtain ⟨u, hu, hcontrol, hflags, hwritten⟩ :=
      s.exists_writeOp_eq_ok (s.memRead s.top.regs.sp.toNat) himm hopen hwf
    refine ⟨u.setReg .sp (u.top.regs.sp + 2), ?_, hcontrol, hflags, ?register, ?sp, ?memory⟩
    · rw [exec_pop s himm, hu, ← u.raiseSp_eq]
      rfl
    case register =>
      rintro r rfl hr
      obtain ⟨hget, hregs, hmem⟩ := hwritten
      have hsp : u.top.regs.sp = s.top.regs.sp := hregs .sp (by simpa using hr.symm)
      refine ⟨?_, congrArg (· + 2) hsp, RegsKept.setReg hregs .sp _, hmem⟩
      rw [State.setReg_regs, Registers.get_set_of_ne _ _ hr, hget]
    case sp =>
      rintro rfl
      obtain ⟨hget, hregs, hmem⟩ := hwritten
      exact ⟨congrArg (· + 2) hget, RegsKept.mono (RegsKept.setReg hregs .sp _) (by simp), hmem⟩
    case memory =>
      rintro b neg d rfl
      obtain ⟨hregs, hstored⟩ := hwritten
      have hsp : u.top.regs.sp = s.top.regs.sp := hregs .sp (by simp)
      exact ⟨congrArg (· + 2) hsp, RegsKept.setReg hregs .sp _, hstored⟩

/-- Settles O21: the push of `call` is that of `push ip`, and its jump runs from `returnPushed s`. -/
theorem callPushesTheReturnAddressAndJumps : Obligations.CallPushesTheReturnAddressAndJumps := by
  intro s target
  refine ⟨encodedAs_of_fields (Laws.EncodeFields.call target), fun hclosed => ?refused, fun hopen hout => ?outside,
    fun hopen hin hwf => ?completes⟩
  case refused =>
    rw [Raises, exec_call, lowered_memWrite_of_not_canStore _ hclosed]
    rfl
  case outside =>
    rw [Raises, exec_call_of_canStore target hopen, (returnPushed s).jump_of_not_inText hout]
    rfl
  case completes =>
    have hpushed : RegsKept [.sp] s (returnPushed s) := regsKept_lowered s
    refine ⟨(returnPushed s).setReg .ip ((returnPushed s).readOp target), ?_, ⟨rfl, rfl, rfl⟩,
      RegsKept.setReg hpushed .ip _, rfl, rfl, rfl, stored_lowered_storeWord _ hwf⟩
    rw [exec_call_of_canStore target hopen, (returnPushed s).jump_of_inText hin, Run.outcome_ok]

/-- Settles O22: `ret` writes `ip` and then `sp`, each once, and a refused jump comes before both. -/
theorem retJumpsToTheTopWordThenRaisesSp : Obligations.RetJumpsToTheTopWordThenRaisesSp := by
  refine fun s => ⟨encodedAs_of_fields Laws.EncodeFields.ret, fun hout => ?refused, fun hin => ?completes⟩
  case refused =>
    rw [Raises, exec_ret, s.jump_of_not_inText hout]
    rfl
  case completes =>
    obtain ⟨-, hothers, -, hmem, hcontrol⟩ := registerWriteChangesOneRegister s .ip (s.memRead s.top.regs.sp.toNat)
    refine ⟨(s.setReg .ip (s.memRead s.top.regs.sp.toNat)).setReg .sp (s.top.regs.sp + 2), ?_, hcontrol,
      RegsKept.setReg hothers .sp _, hmem, rfl, rfl, rfl⟩
    rw [exec_ret, s.jump_of_inText hin]
    exact congrArg _ (State.raiseSp_eq _)

/-- Settles O23: the handler of `nop` returns its state, so a step at its word stops after stages 1 and 2. -/
theorem nopChangesOnlyIpAndHistory : Obligations.NopChangesOnlyIpAndHistory := by
  refine ⟨encodedAs_of_fields Laws.EncodeFields.nop, exec_nop, fun s hrun hw => ?_⟩
  have hdecode : decode 0xC000000000000000 = .ok .nop := decode_encode .nop
  rw [stepRunsTheDecodedInstruction s _ _ hrun hw hdecode, exec_nop]

end Sys2Proof.Machine
end

section
/-! PROOF. `prev()` (44_snapshot_host.md R104, R106): what it pops and keeps, and that it undoes any step; and the step at
the normal end of a run (R111). -/

namespace Sys2Proof.Machine

open Sys2Proof.Claims

/-! ## prev() -/

theorem State.below_eq_nil {s : State} (h : s.depth = 1) : s.below = [] :=
  List.length_eq_zero_iff.1 (Nat.succ.inj h)

/-- With more than one entry `prev()` clears the latch (R104). -/
theorem State.prev_fault_of_one_lt_depth {s : State} (h : 1 < s.depth) : s.prev.fault = none := by
  obtain ⟨e, rest, hbelow⟩ := List.exists_cons_of_length_pos (Nat.lt_of_succ_lt_succ h)
  rw [s.prev_cons hbelow]

/-- Settles O29: the two cases of R104; the invariant keeps a set latch out of the case with no effect. -/
theorem prevPopsOneEntryAndClearsTheLatch : Obligations.PrevPopsOneEntryAndClearsTheLatch := by
  refine fun s => ⟨fun _ _ => s.prev_cons, fun hone => s.prev_nil (State.below_eq_nil hone), fun hinv hset => ?_⟩
  have hdepth : 1 < s.depth := hinv.latchDepth hset
  exact ⟨hdepth, State.prev_fault_of_one_lt_depth hdepth⟩

/-- Settles O40: the new active snapshot was an entry of the history, the latch is clear and the history is shorter. -/
theorem prevKeepsTheInvariant : Obligations.PrevKeepsTheInvariant := by
  intro s hinv
  cases hbelow : s.below with
  | nil => rwa [s.prev_nil hbelow]
  | cons e rest =>
    have hentries : ∀ x ∈ e :: rest, x.mem.wf := hbelow ▸ hinv.belowMem
    obtain ⟨he, hrest⟩ := List.forall_mem_cons.1 hentries
    have hdepth : s.depth = rest.length + 2 := by rw [State.depth, hbelow, List.length_cons]
    rw [s.prev_cons hbelow]
    refine ⟨he, hrest, fun hset => absurd rfl hset, fun m hm => ?_⟩
    have hle : s.depth ≤ m := hinv.bounded m hm
    show rest.length + 1 ≤ m
    omega

/-! ## prev() after a step -/

/-- A step pushed the old active snapshot, ran on a clear latch and left the configuration alone: what `prev()` does not
restore from the history is as it was. -/
theorem prev_of_step {s t : State} (h : step s = .next t) : t.prev = s := by
  obtain ⟨hclear, -, hfive⟩ := step_cases h
  calc t.prev
    _ = { t with top := s.top, below := s.below, fault := none } := t.prev_cons hfive.below
    _ = { s with fault := none } := by rw [step_cfg h]
    _ = s := by rw [← hclear]

/-- Settles O28: `prev()` gives back what the step pushed, and a call that pushed nothing answers the machine it had. -/
theorem prevUndoesAnyStep : Obligations.PrevUndoesAnyStep :=
  ⟨fun _ _ => prev_of_step, fun s hnone => (stepCall_state s).resolve_left (hnone _)⟩

/-! ## The normal end of a run -/

/-- Settles O38: the fetch index there is `N_INSTR`, the first one past the store. -/
theorem stepPastTheEndFaults : Obligations.StepPastTheEndFaults := by
  intro s ⟨hclear, hip⟩ hroom
  have hout : (s.cfg.nInstr : Int) ≤ fetchIndex s := by
    rw [fetchIndex]
    omega
  rw [step_of_fetchIndex_outside ⟨hclear, hroom⟩ (.inr hout), hip]

end Sys2Proof.Machine
end

section
/-! PROOF. The fault kinds of each instruction at stage 5 (60_exceptions.md R113). -/

namespace Sys2Proof.Machine

/-- The stage 5 rows of R113's table, by instruction; `zf` is the flag that `jne` and `je` test. -/
def faultKinds (zf : Bool) : Instr → List FaultKind
  | .mov _ _ | .add _ _ | .sub _ _ | .pop _ => [.invalidOperand, .segmentViolation]
  | .cmp _ _ | .mul _ => [.invalidOperand]
  | .jmp _ | .ret => [.invalidAddress]
  | .jne _ => if zf then [] else [.invalidAddress]
  | .je _ => if zf then [.invalidAddress] else []
  | .push _ => [.segmentViolation]
  | .call _ => [.segmentViolation, .invalidAddress]
  | .nop => []

section
variable {ks : List FaultKind} {s : State} (h : s.LatchIn ks) (hio : .invalidOperand ∈ ks)
include h hio

theorem State.LatchIn.checkPair (dst src : Operand) : (s.checkPair dst src false).LatchIn ks := by
  cases hp : dst.pairOk src with
  | true => rw [s.checkPair_ok hp]; exact h
  | false => rw [s.checkPair_error hp]; exact .raise hio 0

/-- A write to a destination of any kind: an Immediate is refused for its kind, a Memory for its address (R43). -/
theorem State.LatchIn.writeOp_any_kind (hsv : .segmentViolation ∈ ks) (dst : Operand) (v : Word) :
    (s.writeOp dst v).LatchIn ks := by
  cases hdst : dst.isImm with
  | false => exact h.writeOp hsv hdst v
  | true =>
    cases dst with
    | imm w => exact .raise hio 0
    | reg r | mem b neg d => cases hdst

end

/-- Each check on the way of a handler raises a kind of that instruction's row (R113). -/
theorem latchIn_faultKinds_of_exec {i : Instr} {s t : State} (hs : s.fault = none) (h : exec i s = .next t) :
    t.LatchIn (faultKinds s.top.flags.zf i) := by
  have hclear {ks : List FaultKind} : s.LatchIn ks := .of_clear hs
  cases i with
  | mov dst src | add dst src =>
    refine Run.LatchIn.of_outcome ?_ h
    exact (hclear.checkPair (.head _) dst src).bind fun _ hu =>
      hu.writeOp_any_kind (.head _) (.tail _ (.head _)) dst _
  | sub dst src =>
    refine Run.LatchIn.of_outcome ?_ h
    exact (hclear.checkPair (.head _) dst src).bind fun _ hu =>
      (hu.writeOp_any_kind (.head _) (.tail _ (.head _)) dst _).bind fun _ hv => hv
  | cmp dst src =>
    refine Run.LatchIn.of_outcome ?_ h
    exact (hclear.checkPair (.head _) dst src).bind fun _ hu => hu
  | mul src =>
    refine Run.LatchIn.of_outcome ?_ h
    split
    · exact hclear
    · exact .raise (.head _) 0
  | pop dst =>
    refine Run.LatchIn.of_outcome ?_ h
    split
    · exact .raise (.head _) 0
    · exact (hclear.writeOp_any_kind (.head _) (.tail _ (.head _)) dst _).bind fun _ hu => hu
  | jmp target => exact (hclear.jump (.head _) _).of_outcome h
  | jne target =>
    cases hzf : s.top.flags.zf with
    | true => exact Run.LatchIn.of_outcome (x := .ok s) hclear ((exec_jne_of_zf_set target hzf).symm.trans h)
    | false => exact (hclear.jump (.head _) _).of_outcome (exec_jne_of_zf_clear target hzf ▸ h)
  | je target =>
    cases hzf : s.top.flags.zf with
    | true => exact (hclear.jump (.head _) _).of_outcome (exec_je_of_zf_set target hzf ▸ h)
    | false => exact Run.LatchIn.of_outcome (x := .ok s) hclear ((exec_je_of_zf_clear target hzf).symm.trans h)
  | push src => exact (hclear.lowerSp.memWrite (.head _) _ _).of_outcome h
  | call target =>
    exact ((hclear.lowerSp.memWrite (.head _) _ _).bind fun _ hu => hu.jump (.tail _ (.head _)) _).of_outcome h
  | ret =>
    refine Run.LatchIn.of_outcome ?_ h
    exact (hclear.jump (.head _) _).bind fun _ hu => hu
  | nop => exact Run.LatchIn.of_outcome (x := .ok s) hclear h

theorem unsupportedOpcode_notMem_faultKinds (zf : Bool) (i : Instr) : .unsupportedOpcode ∉ faultKinds zf i := by
  cases i <;> cases zf <;> simp [faultKinds]

/-- Settles O35: the kind of the latched record stands in the instruction's row of R113's table. -/
theorem faultKindsEachInstructionCanRaise : Obligations.FaultKindsEachInstructionCanRaise := by
  intro i s t r hs h hr
  have hrow : r.kind ∈ faultKinds s.top.flags.zf i := latchIn_faultKinds_of_exec hs h r hr
  refine ⟨fun hk => unsupportedOpcode_notMem_faultKinds _ i (hk ▸ hrow), ?_⟩
  cases i with
  | mov | add | sub | pop => exact fun hk => by simp [hk, faultKinds] at hrow
  | cmp | mul | jmp | ret | push => exact List.mem_singleton.1 hrow
  | jne | je => simpa [faultKinds, and_comm] using hrow
  | call => simpa [faultKinds] using hrow
  | nop => cases hrow

end Sys2Proof.Machine
end

section
/-! PROOF. What a faulting step leaves in the active snapshot (70_reset_and_hazards.md R130). Each shared operation checks
before it writes, so a raise leaves `top` as it was when the raising operation began. -/

namespace Sys2Proof.Machine

open Sys2Proof.Claims

/-- The run completes with the latch clear, or a raise abandons it with the active snapshot `p`. -/
def Run.RaisesLeaving (p : Snapshot) : Run → Prop
  | .ok u => u.fault = none
  | .error u => u.top = p

namespace Run.RaisesLeaving

variable {p : Snapshot} {x : Run}

theorem raise (s : State) (k : FaultKind) (f : Int) : Run.RaisesLeaving s.top (.error (s.raise k f)) := rfl

theorem bind {g : State → Run} (hx : x.RaisesLeaving p) (hg : ∀ u : State, u.fault = none → (g u).RaisesLeaving p) :
    Run.RaisesLeaving p (x >>= g) := by
  cases x with
  | ok u => exact hg u hx
  | error u => exact hx

/-- A handler that sets the latch was abandoned by a raise. -/
theorem of_outcome {t : State} {r : FaultRecord} (hx : x.RaisesLeaving p) (h : x.outcome = .next t)
    (hr : t.fault = some r) : t.top = p := by
  cases x with
  | ok u => cases h; cases hr.symm.trans hx
  | error u => cases h; exact hx

end Run.RaisesLeaving

/-! ## The shared operations -/

section
variable {s : State} (hs : s.fault = none)
include hs

theorem State.memWrite_raisesLeaving (a : Int) (v : Word) : (s.memWrite a v).RaisesLeaving s.top := by
  cases hw : writableWord s.cfg a with
  | true => rw [s.memWrite_ok v hw]; exact hs
  | false => rw [s.memWrite_error v hw]; exact .raise _ _ _

theorem State.writeOp_raisesLeaving (dst : Operand) (v : Word) : (s.writeOp dst v).RaisesLeaving s.top := by
  cases dst with
  | reg r => exact hs
  | imm w => exact .raise _ _ _
  | mem b neg d => exact State.memWrite_raisesLeaving hs _ v

theorem State.jump_raisesLeaving (x : Word) : (s.jump x).RaisesLeaving s.top := by
  cases hx : inText s.cfg x with
  | true => rw [s.jump_ok hx]; exact hs
  | false => rw [s.jump_error hx]; exact .raise _ _ _

end

/-- The operand-pair check raises before any effect, and changes nothing where it passes. -/
theorem Run.RaisesLeaving.after_checkPair {s : State} {k : State → Run} (dst src : Operand)
    (h : (k s).RaisesLeaving s.top) : Run.RaisesLeaving s.top (s.checkPair dst src false >>= k) := by
  cases hp : dst.pairOk src with
  | true => rw [s.checkPair_ok hp]; exact h
  | false => rw [s.checkPair_error hp]; exact .raise _ _ _

/-! ## The handlers -/

/-- R130's table for stage 5: the active snapshot after an instruction that started in `s` raised a fault of kind `k`. -/
def topAfterFault (s : State) (k : FaultKind) : Instr → Snapshot
  | .push _ => (lowered s).top
  | .call _ => if k = .invalidAddress then (returnPushed s).top else (lowered s).top
  | .mov _ _ | .add _ _ | .sub _ _ | .cmp _ _ | .jmp _ | .jne _ | .je _ | .pop _ | .ret | .mul _ | .nop => s.top

/-- `call` raises in its store, before the return address is there, or in its jump, after it (R100). -/
theorem top_of_exec_call_of_fault {s t : State} {r : FaultRecord} {target : Operand} (hs : s.fault = none)
    (h : exec (.call target) s = .next t) (hr : t.fault = some r) : t.top = topAfterFault s r.kind (.call target) := by
  obtain ⟨-, hclosed, hout, -⟩ := callPushesTheReturnAddressAndJumps s target
  by_cases hslot : CanStore s.cfg (s.top.regs.sp - 2).toNat
  · by_cases hin : InText s.cfg ((returnPushed s).readOp target)
    · rw [exec_call_of_canStore target hslot, (returnPushed s).jump_of_inText hin] at h
      cases h
      cases hr.symm.trans hs
    · cases h.symm.trans (hout hslot hin)
      cases hr
      rfl
  · cases h.symm.trans (hclosed hslot)
    cases hr
    rfl

/-- Every handler but `push` and `call` makes its last check before its first effect (R130). -/
theorem top_of_exec_of_fault {i : Instr} {s t : State} {r : FaultRecord} (hs : s.fault = none)
    (h : exec i s = .next t) (hr : t.fault = some r) : t.top = topAfterFault s r.kind i := by
  cases i with
  | mov dst src | add dst src =>
    refine Run.RaisesLeaving.of_outcome ?_ h hr
    exact .after_checkPair dst src (State.writeOp_raisesLeaving hs dst _)
  | sub dst src =>
    refine Run.RaisesLeaving.of_outcome ?_ h hr
    exact .after_checkPair dst src ((State.writeOp_raisesLeaving hs dst _).bind fun _ hu => hu)
  | cmp dst src =>
    refine Run.RaisesLeaving.of_outcome ?_ h hr
    exact .after_checkPair dst src hs
  | jmp target => exact (State.jump_raisesLeaving hs _).of_outcome h hr
  | jne target =>
    refine Run.RaisesLeaving.of_outcome ?_ h hr
    split
    · exact hs
    · exact State.jump_raisesLeaving hs _
  | je target =>
    refine Run.RaisesLeaving.of_outcome ?_ h hr
    split
    · exact State.jump_raisesLeaving hs _
    · exact hs
  | push src =>
    rw [exec_push] at h
    exact (State.memWrite_raisesLeaving (s := lowered s) hs _ _).of_outcome h hr
  | pop dst =>
    refine Run.RaisesLeaving.of_outcome ?_ h hr
    split
    · exact .raise _ _ _
    · exact (State.writeOp_raisesLeaving hs dst _).bind fun _ hu => hu
  | call target => exact top_of_exec_call_of_fault hs h hr
  | ret =>
    refine Run.RaisesLeaving.of_outcome ?_ h hr
    exact (State.jump_raisesLeaving hs _).bind fun _ hu => hu
  | mul src =>
    refine Run.RaisesLeaving.of_outcome ?_ h hr
    split
    · exact hs
    · exact .raise _ _ _
  | nop => exact Run.RaisesLeaving.of_outcome (x := .ok s) hs h hr

/-! ## The step -/

theorem running_of_step {s t : State} (h : step s = .next t) : Running s := by
  obtain ⟨hclear, hroom, -⟩ := step_cases h
  exact ⟨hclear, fun hfull => by simp [historyFull_iff.2 hfull] at hroom⟩

/-- Stages 3 and 4 raise with only the effects of stages 1 and 2 (R79). -/
theorem top_of_step_of_not_decoded {s t : State} (h : step s = .next t)
    (hnone : ¬ ∃ w i, FetchedWord s w ∧ decode w = .ok i) : t.top = (begun s).top := by
  have hrun := running_of_step h
  by_cases hout : fetchIndex s < 0 ∨ (s.cfg.nInstr : Int) ≤ fetchIndex s
  · cases h.symm.trans (step_of_fetchIndex_outside hrun hout)
    rfl
  · obtain ⟨w, hw⟩ := exists_fetchedWord (s := s) (by omega) (by omega)
    cases hd : decode w with
    | error e =>
      cases h.symm.trans (step_of_decode_error hrun hw hd)
      rfl
    | ok i => exact absurd ⟨w, i, hw, hd⟩ hnone

/-- Settles O36: a fault of stage 3 or 4 comes before the handler runs, and one of stage 5 leaves what R130's table says
of the handler, which starts in `begun s`. -/
theorem faultingStepLeavesOnlyTheTabledEffects : Obligations.FaultingStepLeavesOnlyTheTabledEffects := by
  intro s t r h hr
  refine ⟨top_of_step_of_not_decoded h, fun w i hw hi => ?_⟩
  have hrun := running_of_step h
  have hexec : exec i (begun s) = .next t := (stepRunsTheDecodedInstruction s w i hrun hw hi).symm.trans h
  have htop : t.top = topAfterFault (begun s) r.kind i := top_of_exec_of_fault hrun.1 hexec hr
  cases i with
  | call target =>
    exact ⟨fun hk => by simpa [hk, topAfterFault] using htop, fun hk => by simpa [hk, topAfterFault] using htop⟩
  | mov | add | sub | cmp | jmp | jne | je | push | pop | ret | mul | nop => exact htop

end Sys2Proof.Machine
end
